-- ==== Sys2Proof/Word.lean ====
section
/-!
DEFINITION. The words of the block's interface (R41, 30_encoding.md) and the widths of its slots
(R14, R15, R18, 10_state.md).
-/
namespace Sys2Proof

/-- A command word `cmd[31:0]` (R41). -/
abbrev CmdWord := BitVec 32

/-- A data word `data[63:0]` (R41). -/
abbrev DataWord := BitVec 64

/-- A response word `rsp[63:0]` (R41). -/
abbrev RspWord := BitVec 64

/-- A numeric slot's mask, and a font entry (R14, R20): bits 6..0 segments, bit 7 the point. -/
abbrev Mask := BitVec 8

/-- The separator slot's mask (R15), and the widest mask a command carries (R44). -/
abbrev WideMask := BitVec 16

end Sys2Proof
end

