-- ==== Sys2Proof/Config.lean ====
section
/-!
DEFINITION. The block's open parameters FONT, SEP_ON and NUM (R9, 00_scope.md). They are constants of
an instance (R13, 10_state.md); every meaning takes them from the configuration it is given.
-/
namespace Sys2Proof

/-- The numeric domain of `value` and `scale` (R11): correctly rounded binary64, or exact rationals. -/
inductive NumDomain where
  | binary64
  | exact
  deriving DecidableEq, Repr

/-- The parameters a model takes as arguments (R9). -/
structure Config where
  /-- The font ROM, sixteen 8-bit entries (R20). -/
  font : Vector Mask 16
  /-- The separator's "on" mask (R69). -/
  sepOn : WideMask
  /-- The numeric domain (R11). -/
  num : NumDomain
  deriving DecidableEq, Repr

/-- What R57 asks of every `FONT` argument: bit 7 of each entry is clear. -/
abbrev Config.FontOk (c : Config) : Prop := ∀ d : Fin 16, c.font[d].getLsbD 7 = false

end Sys2Proof
end

