-- ==== Sys2Proof/Machine/Font.lean ====
section
/-!
DEFINITION. The segment font ROM: its lookup (R56, 40_font_rom.md) and the parameter values the spec
decides (R9, 00_scope.md; R62).
-/
namespace Sys2Proof.Machine

/-- `segmentsFor(d) = FONT[d]`, defined for every 4-bit index (R56, R59). -/
def segmentsFor (c : Config) (d : BitVec 4) : Mask := c.font[d.toFin]

/-- `FONT_STD` of R62.
UNVERIFIED (log 6): R62 decides the table and marks its sixteen values as general knowledge. Unsafe for a
claim that rests on a glyph's bits; safe for one stated for every font. -/
def fontStd : Vector Mask 16 :=
  #v[0x3F, 0x06, 0x5B, 0x4F, 0x66, 0x6D, 0x7D, 0x07, 0x7F, 0x6F, 0x77, 0x7C, 0x39, 0x5E, 0x79, 0x71]

/-- The default of SEP_ON (R9, R69).
UNVERIFIED (log 7): R9 decides it and marks it as general knowledge. Unsafe for a claim that rests on it. -/
def sepOnStd : WideMask := 0x0002

/-- The parameters as the spec decides them (R9): FONT_STD, 0x0002 and BINARY64. -/
def configStd : Config := ⟨fontStd, sepOnStd, .binary64⟩

end Sys2Proof.Machine
end

