-- ==== Sys2Proof/Syntax.lean ====
section
/-!
DEFINITION. The nine commands with their operands (R49, 30_encoding.md; opcode_table.json) and the
reasons for which a command word is refused (R106, 60_exceptions.md).
-/
namespace Sys2Proof

/-- One constructor per row of the opcode table (R49), its operands as R44 and R45 assemble them. -/
inductive Instr where
  /-- CLEAR (R66). -/
  | clear
  /-- WRAW pos, mask (R67). -/
  | wraw (pos : BitVec 8) (mask : WideMask)
  /-- WDIG pos, digit, dp (R68). -/
  | wdig (pos : BitVec 8) (digit : BitVec 4) (dp : Bool)
  /-- WSEP on (R69). -/
  | wsep (on : Bool)
  /-- FMT value, fd, base, the value a binary64 pattern (R93). -/
  | fmt (value : DataWord) (fd base : BitVec 8)
  /-- FMTI value, fd, base, the value a two's-complement integer (R94). -/
  | fmti (value : DataWord) (fd base : BitVec 8)
  /-- WCHR c (R72). -/
  | wchr (c : BitVec 8)
  /-- RCUR (R73). -/
  | rcur
  /-- RDBUF (R70). -/
  | rdbuf
  deriving DecidableEq, Repr

/-- The closed list of refusal reasons (R106). -/
inductive RefusalReason where
  /-- `op` in 0x9..0xF (R50). -/
  | reservedOpcode
  /-- A reserved bit of a defined opcode set (R51). -/
  | reservedField
  /-- FMT or FMTI with `base` outside 2..16 (R52). -/
  | badBase
  deriving DecidableEq, Repr

end Sys2Proof
end

