-- ==== Sys2Proof/Machine/State.lean ====
section
/-!
DEFINITION. The state of one block instance (R13, 10_state.md), its value at reset (R119,
70_reset_and_hazards.md), and the reasons a step can stop.
-/
namespace Sys2Proof.Machine

/-- The closed list of fault reasons (R107, 60_exceptions.md). A command that faults appends its reason
to the `fault` list of the state; a step from a state whose list is not empty stops with the list's
first reason (log 3). Both are safe: the run stops where the hardware would go on with a value no
source gives. -/
inductive Fault where
  /-- Raised by RDBUF while some slot is unwritten (R70: "fault ReadUnwrittenSlot"; I5 of
  93_implementation_defined.md gives the treatment `fault`, not `any value`), and by `step` from a state that
  carries it. Safe: the model stops, as R107 and R120 say, where a device would go on. -/
  | readUnwrittenSlot
  /-- Raised by WCHR with a character that is no line end while the cursor is unwritten (R72: "fault
  ReadUnwrittenCursor"; I6 of 93_implementation_defined.md gives the treatment `fault`, not `any value`), and
  by `step` from a state that carries it. Safe: the model stops, as R107 and R120 say, where a device would
  go on. -/
  | readUnwrittenCursor
  deriving DecidableEq, Repr

/-- The refusals of a step. A refused command itself only sets the `refused` mark (R106), so none of its
reasons stands here. -/
inductive Refusal where
  /-- Raised by an arm of `exec` whose instruction has no meaning yet; no arm raises it now. Safe: the
  run stops. -/
  | notModelled (mnemonic : String)
  /-- Raised by `step` from a state that carries the `refused` mark, which R106 says is never final.
  Safe: the run stops where the hardware may go on. -/
  | refusedMark
  deriving DecidableEq, Repr

/-- A register of the block: no value the model may read, or a value (R13, R120). -/
inductive Reg (w : Nat) where
  | unwritten
  | written (v : BitVec w)
  deriving DecidableEq, Repr

/-- The digit buffer (R14, R15, R28): four 8-bit numeric slots and the 16-bit separator slot. -/
structure Buffer where
  slot0 : Reg 8
  slot1 : Reg 8
  slot2 : Reg 16
  slot3 : Reg 8
  slot4 : Reg 8
  deriving DecidableEq, Repr

/-- The words the host presents for one command (R41). -/
structure Transaction where
  cmd : CmdWord
  data : DataWord
  deriving DecidableEq, Repr

/-- What the last transaction gave the host. DESIGN CHOICE (log 5): the response word is an output of a
command and no state of the block (R22); the model holds the last one so that a step can show it. Safe. -/
inductive Reply where
  /-- No transaction has been performed since reset. -/
  | nothing
  /-- The command completed with this response word (R41, R47, R48). -/
  | word (rsp : RspWord)
  /-- The command was refused for this reason (R106, R108). -/
  | refused (r : RefusalReason)
  /-- The command faulted for this reason (R107). -/
  | faulted (r : Fault)
  deriving DecidableEq, Repr

/-- One block instance (R13), its configuration (R9; DESIGN CHOICE, log 1, safe: carried here so that a
claim about every state is a claim about every FONT, SEP_ON and NUM), and the host's side of the
command interface (DESIGN CHOICE, logs 4 and 5, safe). -/
structure State where
  /-- The digit buffer (R14, R15). -/
  slot : Buffer
  /-- The stream writer's cursor, one 3-bit field (R18). -/
  cursor : Reg 3
  /-- The faults recorded so far, oldest first (R107). -/
  fault : List Fault
  /-- Whether a command has been refused (R106). -/
  refused : Bool
  /-- FONT, SEP_ON and NUM (R9). -/
  config : Config
  /-- The commands the host has yet to have performed, next one first (R21, R41). -/
  pending : List Transaction
  /-- The index of the next transaction in the host's sequence (R21). -/
  index : Nat
  /-- What the last transaction returned (R41). -/
  reply : Reply
  deriving DecidableEq, Repr

/-- A buffer none of whose slots has been written (R119). -/
def Buffer.unwritten : Buffer := ⟨.unwritten, .unwritten, .unwritten, .unwritten, .unwritten⟩

/-- The state at the start of an instance (R118, R119): slots and cursor unwritten, no mark, the decided
parameters (R9); the host has presented nothing yet (R121; DESIGN CHOICE, logs 4 and 5). -/
def State.reset : State where
  slot := Buffer.unwritten
  cursor := .unwritten
  fault := []
  refused := false
  config := configStd
  pending := []
  index := 0
  reply := .nothing

end Sys2Proof.Machine
end

