-- ==== Sys2Proof/Machine/Ops.lean ====
section
/-!
DEFINITION. The named operations over the buffer, the cursor and the marks: the two buffer primitives
every slot write goes through (R64, R65, 41_buffer.md), the error indicator (R92, 43_formatter.md), the
response (R47), and what a refusal and a fault record (R106, R107, 60_exceptions.md), which take the
place of exception entry on a block without traps (R109).
-/
namespace Sys2Proof.Machine

/-- SIGN_MASK (R8, R89). -/
def signMask : WideMask := 0x40

/-- ERR_MASK (R8, R92; conflict C1). -/
def errMask : WideMask := 0x40

/-- `WriteRaw(p, m)` (R64): slot 2 keeps 16 bits, a numeric slot bits 7:0, any other position (below 0 or
above 4) drops the write. -/
def writeRaw (p : Int) (m : WideMask) (b : Buffer) : Buffer :=
  if p = 2 then { b with slot2 := .written m }
  else if p = 0 then { b with slot0 := .written (m.setWidth 8) }
  else if p = 1 then { b with slot1 := .written (m.setWidth 8) }
  else if p = 3 then { b with slot3 := .written (m.setWidth 8) }
  else if p = 4 then { b with slot4 := .written (m.setWidth 8) }
  else b

/-- The mask `FONT[d] | (dp << 7)` that a digit write stores (R65). -/
def glyph (c : Config) (d : BitVec 4) (dp : Bool) : Mask :=
  segmentsFor c d ||| (if dp then 0x80#8 else 0#8)

/-- `WriteDigit(p, d, dp)` (R65): the glyph, zero-extended to 16 bits, through `WriteRaw`. -/
def writeDigit (c : Config) (p : Int) (d : BitVec 4) (dp : Bool) (b : Buffer) : Buffer :=
  writeRaw p ((glyph c d dp).setWidth 16) b

/-- Every slot 0 (R66). -/
def clearSlots (b : Buffer) : Buffer :=
  writeRaw 4 0 (writeRaw 3 0 (writeRaw 2 0 (writeRaw 1 0 (writeRaw 0 0 b))))

/-- `ShowError()` (R92): the error mask in every numeric slot, slot 2 blank. -/
def showError (b : Buffer) : Buffer :=
  writeRaw 4 errMask (writeRaw 3 errMask (writeRaw 2 0 (writeRaw 1 errMask (writeRaw 0 errMask b))))

/-- The five slots packed as RDBUF returns them (R48); none when some slot is unwritten (R70). -/
def packSlots (b : Buffer) : Option RspWord :=
  match b.slot0, b.slot1, b.slot2, b.slot3, b.slot4 with
  | .written s0, .written s1, .written s2, .written s3, .written s4 =>
    some (0#16 ++ s4 ++ s3 ++ s2 ++ s1 ++ s0)
  | _, _, _, _, _ => none

/-- The cursor one position on (step 4 of R72): saturating at 5, skipping the separator slot. -/
def advanceCursor (c : BitVec 3) : BitVec 3 :=
  let n := min (c.toNat + 1) 5
  if n = 2 then 3 else BitVec.ofNat 3 n

/-- The command completes with a response word (R41). -/
def State.respond (rsp : RspWord) (s : State) : State := { s with reply := .word rsp }

/-- The buffer of a state replaced. -/
def State.withSlot (b : Buffer) (s : State) : State := { s with slot := b }

/-- The cursor of a state set. -/
def State.withCursor (c : BitVec 3) (s : State) : State := { s with cursor := .written c }

/-- A fault (R107): its reason is appended to the fault list; no slot and no cursor changes (R109). The
spec gives a faulted command no response word (log 5). -/
def State.takeFault (r : Fault) (s : State) : State :=
  { s with fault := s.fault ++ [r], reply := .faulted r }

/-- A refusal (R106): the `refused` mark is set, the reason reported (R108); no slot and no cursor
changes. -/
def State.takeRefusal (r : RefusalReason) (s : State) : State :=
  { s with refused := true, reply := .refused r }

end Sys2Proof.Machine
end

