-- ==== Sys2Proof/Machine/BufferCommands.lean ====
section
/-!
DEFINITION. The digit buffer commands CLEAR, WRAW, WDIG, WSEP, RDBUF (R66 to R70, 41_buffer.md).
-/
namespace Sys2Proof.Machine

/-- CLEAR (R66): all five slots 0; the cursor is not changed. -/
def execClear (s : State) : Host.Outcome State Fault Refusal :=
  .next ((s.withSlot (clearSlots s.slot)).respond 0)

/-- WRAW pos, mask (R67): `WriteRaw(pos, mask)`. -/
def execWraw (pos : BitVec 8) (mask : WideMask) (s : State) : Host.Outcome State Fault Refusal :=
  .next ((s.withSlot (writeRaw pos.toNat mask s.slot)).respond 0)

/-- WDIG pos, digit, dp (R68): `WriteDigit(pos, digit, dp)`. -/
def execWdig (pos : BitVec 8) (digit : BitVec 4) (dp : Bool) (s : State) :
    Host.Outcome State Fault Refusal :=
  .next ((s.withSlot (writeDigit s.config pos.toNat digit dp s.slot)).respond 0)

/-- WSEP on (R69): slot 2 gets SEP_ON or 0. -/
def execWsep (on : Bool) (s : State) : Host.Outcome State Fault Refusal :=
  .next ((s.withSlot (writeRaw 2 (if on then s.config.sepOn else 0) s.slot)).respond 0)

/-- RDBUF (R70): the packed slots, or the fault ReadUnwrittenSlot while some slot is unwritten, which R70's
pseudocode, R107, R120, decision D18 and I5 of 93_implementation_defined.md all name for this case. -/
def execRdbuf (s : State) : Host.Outcome State Fault Refusal :=
  match packSlots s.slot with
  | some rsp => .next (s.respond rsp)
  | none => .next (s.takeFault .readUnwrittenSlot)

end Sys2Proof.Machine
end

