-- ==== Sys2Proof/Machine/Num.lean ====
section
/-!
DEFINITION. The numeric domains BINARY64 and EXACT (R11, 00_scope.md): the only arithmetic the formatter
uses on `value` and `scale`.

Every finite binary64 number is a whole multiple of 2^-1074, the least subnormal. A finite number is
held as that multiple, its `units`, with its sign; each operation computes exactly on units and rounds
once (log 8). Powers of two are written as shifts, `a <<< e` for `a * 2^e`.
-/
namespace Sys2Proof.Machine

/-- A binary64 value (R11, R45). The payloads of NaN patterns are not kept apart: no rule reads one, and
none arises in the formatter (log 9). -/
inductive F64 where
  | nan
  | inf (neg : Bool)
  | fin (neg : Bool) (units : Nat)
  deriving DecidableEq, Repr

/-- `n / d` rounded to an integer, to nearest, ties to even. -/
def divNearestEven (n d : Nat) : Nat :=
  let q := n / d
  let r := n % d
  if 2 * r < d then q else if d < 2 * r then q + 1 else q + q % 2

/-- The highest set bit of a number below `2^(2^k)`, by halving the search. -/
def topBitFrom : Nat → Nat → Nat
  | 0, _ => 0
  | k + 1, n =>
    if n >>> (1 <<< k) = 0 then topBitFrom k n else topBitFrom k (n >>> (1 <<< k)) + (1 <<< k)

/-- The highest set bit of a number below 2^8192, more than any operand of an operation here has.
(`F64.round` overflows all the same on anything larger: `F64.round_eq` in Sys2Proof/Laws/Num.lean states
it with `Nat.log2`, which the kernel evaluates too slowly.) -/
def topBit (n : Nat) : Nat := topBitFrom 13 n

/-- The exponent of the rounding step for the number `n / d` units: 53 significant bits are kept, and
never less than one unit. -/
def roundExponent (n d : Nat) : Nat := topBit (n / d) - 52

/-- Units in 2^1024, the least magnitude that overflows once rounded to 53 significant bits. -/
def overflowUnits : Nat := 1 <<< 2098

/-- The binary64 number nearest to `n / d` units, ties to even, with overflow to infinity (R11). -/
def F64.round (neg : Bool) (n d : Nat) : F64 :=
  let e := roundExponent n d
  let u := divNearestEven n (d <<< e) <<< e
  if u < overflowUnits then .fin neg u else .inf neg

/-- Units in the number 1. -/
def oneUnits : Nat := 1 <<< 1074

/-- The value of a binary64 pattern: bit 63 sign, bits 62:52 biased exponent, bits 51:0 fraction (R45). -/
def F64.ofBits (b : BitVec 64) : F64 :=
  let neg := b.getLsbD 63
  let ex := (b.extractLsb' 52 11).toNat
  let fr := (b.extractLsb' 0 52).toNat
  if ex = 2047 then (if fr = 0 then .inf neg else .nan)
  else if ex = 0 then .fin neg fr
  else .fin neg ((0x10000000000000 + fr) <<< (ex - 1))

/-- `nIsFinite(b)` (R11): b encodes neither an infinity nor a NaN. -/
def nIsFinite (b : BitVec 64) : Bool := !(b.extractLsb' 52 11 == 2047#11)

/-- `nOfInt(i)` in BINARY64 (R11). -/
def F64.ofInt (i : Int) : F64 := F64.round (i < 0) (i.natAbs * oneUnits) 1

/-- Signed units. -/
def signedUnits (neg : Bool) (u : Nat) : Int := if neg then -(u : Int) else u

/-- The ordered comparison of R11: false on a NaN, and -0 is not below 0. -/
def F64.lt : F64 → F64 → Bool
  | .nan, _ => false
  | _, .nan => false
  | .inf s, .inf t => s && !t
  | .inf s, .fin _ _ => s
  | .fin _ _, .inf t => !t
  | .fin s a, .fin t b => decide (signedUnits s a < signedUnits t b)

/-- `nneg(a)` (R11). -/
def F64.neg : F64 → F64
  | .nan => .nan
  | .inf s => .inf !s
  | .fin s a => .fin (!s) a

/-- `nmul(a, b)` (R11): one correctly rounded product. -/
def F64.mul : F64 → F64 → F64
  | .nan, _ => .nan
  | _, .nan => .nan
  | .inf s, .inf t => .inf (s ^^ t)
  | .inf s, .fin t b => if b = 0 then .nan else .inf (s ^^ t)
  | .fin s a, .inf t => if a = 0 then .nan else .inf (s ^^ t)
  | .fin s a, .fin t b => F64.round (s ^^ t) (a * b) oneUnits

/-- `ndiv(a, k)` for a positive integer k (R11): one correctly rounded quotient. -/
def F64.div : F64 → Nat → F64
  | .nan, _ => .nan
  | .inf s, _ => .inf s
  | .fin s a, k => F64.round s a k

/-- `nadd(a, b)` (R11): one correctly rounded sum; an exact zero sum is +0 unless both terms are -0. -/
def F64.add : F64 → F64 → F64
  | .nan, _ => .nan
  | _, .nan => .nan
  | .inf s, .inf t => if s = t then .inf s else .nan
  | .inf s, .fin _ _ => .inf s
  | .fin _ _, .inf t => .inf t
  | .fin s a, .fin t b =>
    let sum := signedUnits s a + signedUnits t b
    F64.round (if sum = 0 then s && t else decide (sum < 0)) sum.natAbs 1

/-- `dv` (R80): an exact integer, or OVER. -/
inductive DisplayValue where
  | over
  | int (n : Nat)
  deriving DecidableEq, Repr

/-- The integer part of a number that is not negative; OVER for +infinity (R11, R80). The other values
do not arise from `nround`, which is taken of numbers that are not negative (log 9). -/
def F64.trunc : F64 → DisplayValue
  | .nan => .over
  | .inf _ => .over
  | .fin _ u => .int (u / oneUnits)

/-- The operations of a numeric domain (R11) over its carrier. -/
structure NumOps (N : Type) where
  /-- `nOfBits(b)`, defined only when `nIsFinite(b)`. -/
  ofBits : BitVec 64 → Option N
  ofInt : Int → N
  lt : N → N → Bool
  neg : N → N
  mul : N → N → N
  div : N → Nat → N
  /-- `nround(a)` for `a >= 0`: `trunc(nadd(a, 1/2))`, OVER when the sum is +infinity. -/
  round : N → DisplayValue

/-- 1/2 in BINARY64. -/
def F64.half : F64 := .fin false (1 <<< 1073)

/-- `nround(a)` in BINARY64 (R11, R80): the addition is its own rounded operation, then exact truncation. -/
def F64.nround (a : F64) : DisplayValue := (F64.add a F64.half).trunc

/-- The domain BINARY64 (R11). -/
def binary64Ops : NumOps F64 where
  ofBits b := if nIsFinite b then some (F64.ofBits b) else none
  ofInt := F64.ofInt
  lt := F64.lt
  neg := F64.neg
  mul := F64.mul
  div := F64.div
  round := F64.nround

/-- The exact rational value of a finite binary64 value. -/
def F64.toRat? : F64 → Option Rat
  | .nan => none
  | .inf _ => none
  | .fin s u => some (mkRat (signedUnits s u) oneUnits)

/-- `nround(a)` in EXACT (R11): the integer part of `a + 1/2` for `a >= 0`; never OVER. -/
def ratRound (a : Rat) : DisplayValue := .int (a + 1 / 2).floor.toNat

/-- The domain EXACT (R11): the rational numbers, every operation exact. -/
def exactOps : NumOps Rat where
  ofBits b := (F64.ofBits b).toRat?
  ofInt i := (i : Rat)
  lt a b := decide (a < b)
  neg a := -a
  mul a b := a * b
  div a k := a / (k : Rat)
  round := ratRound

end Sys2Proof.Machine
end

