-- ==== Sys2Proof/Machine/Operands.lean ====
section
/-!
DEFINITION. The operand forms beyond plain fields: the three character classes of WCHR (R71,
42_stream.md) and the integer value of FMTI (R45, 30_encoding.md). The fields themselves are taken
apart in Sys2Proof/Decode.lean (R44).
-/
namespace Sys2Proof.Machine

/-- The classes of R71. -/
inductive CharClass where
  | lineEnd
  | digit (d : BitVec 4)
  | other
  deriving DecidableEq, Repr

/-- The class of a character code (R71): 0x0A and 0x0D end a line, 0x30..0x39 are digits. -/
def charClass (c : BitVec 8) : CharClass :=
  if c = 0x0A#8 ∨ c = 0x0D#8 then .lineEnd
  else if 0x30 ≤ c.toNat ∧ c.toNat ≤ 0x39 then .digit (BitVec.ofNat 4 (c.toNat - 0x30))
  else .other

/-- `sext_64(data)`: the data word of FMTI as a signed integer (R45). -/
def intValue (data : DataWord) : Int := data.toInt

end Sys2Proof.Machine
end

