-- ==== Sys2Proof/Machine/Format.lean ====
section
/-!
DEFINITION. The procedure `Format` (R76 to R91, 43_formatter.md), written once over a numeric domain.
Its working values live only here (R23, 10_state.md).
-/
namespace Sys2Proof.Machine

/-- `scale = base^fd0` by repeated multiplication (R79). -/
def scaleOf {N : Type} (D : NumOps N) (base : Nat) : Nat → N
  | 0 => D.ofInt 1
  | k + 1 => D.mul (scaleOf D base k) (D.ofInt base)

/-- `dv = OVER or dv >= limit`, the condition of the loop of R83. -/
def DisplayValue.reaches (limit : Nat) : DisplayValue → Bool
  | .over => true
  | .int n => limit ≤ n

/-- The working values of the reduction loop (R23, R83). -/
structure Working (N : Type) where
  fd : Int
  scale : N
  dv : DisplayValue

/-- One pass of the loop of R83. -/
def reducePass {N : Type} (D : NumOps N) (value : N) (base : Nat) (w : Working N) : Working N :=
  let scale := D.div w.scale base
  ⟨w.fd - 1, scale, D.round (D.mul value scale)⟩

/-- The loop of R83, at most `passes` times round. -/
def reduceLoop {N : Type} (D : NumOps N) (value : N) (base limit : Nat) : Nat → Working N → Working N
  | 0, w => w
  | k + 1, w =>
    if w.dv.reaches limit then reduceLoop D value base limit k (reducePass D value base w) else w

/-- The bound R96 gives for the loop of R83 (log 10). -/
def maxPasses (fd0 : Nat) : Nat := fd0 + 1025

/-- Steps 2 to 5 (R79, R80, R83) for a value that is not negative. -/
def reduced {N : Type} (D : NumOps N) (value : N) (fd0 base limit : Nat) : Working N :=
  let scale := scaleOf D base fd0
  reduceLoop D value base limit (maxPasses fd0) ⟨fd0, scale, D.round (D.mul value scale)⟩

/-- The buffer and the slot pointer `p` while rendering (R23, R85). -/
structure Pen where
  buf : Buffer
  p : Int
  deriving DecidableEq, Repr

/-- One digit at the slot pointer, which then moves left; when it reaches the separator, slot 2 is
blanked and passed (R85, R87). -/
def emitDigit (c : Config) (d : BitVec 4) (dp : Bool) (pen : Pen) : Pen :=
  let b := writeDigit c pen.p d dp pen.buf
  if pen.p - 1 = 2 then ⟨writeRaw 2 0 b, pen.p - 2⟩ else ⟨b, pen.p - 1⟩

/-- The point stands on the digit emitted after exactly `fd` digits, if `fd` is not 0 (R86). -/
def pointAt (fd : Int) (i : Nat) : Bool := fd != 0 && (i : Int) == fd

/-- The loop of R85 from `i` digits emitted, at most `turns` times round. -/
def renderLoop (c : Config) (base : Nat) (fd : Int) : Nat → Nat → Nat → Pen → Pen
  | 0, _, _, pen => pen
  | k + 1, i, dv, pen =>
    if dv ≠ 0 ∨ (i : Int) ≤ fd then
      renderLoop c base fd k (i + 1) (dv / base)
        (emitDigit c (BitVec.ofNat 4 (dv % base)) (pointAt fd i) pen)
    else pen

/-- The bound R96 gives for the loop of R85 (log 11). -/
def maxTurns : Nat := 256

/-- Step 7 (R85, R88): the digits of `dv`, or a single 0 at slot 4. -/
def renderDigits (c : Config) (base : Nat) (fd : Int) (dv : Nat) (b : Buffer) : Pen :=
  if dv = 0 then ⟨writeDigit c 4 0 false b, 3⟩ else renderLoop c base fd maxTurns 0 dv ⟨b, 4⟩

/-- Step 8 (R89): the sign glyph at the next slot to the left. -/
def renderSign (negative : Bool) (pen : Pen) : Pen :=
  if negative then ⟨writeRaw pen.p signMask pen.buf, pen.p - 1⟩ else pen

/-- Blank slots `k - 1` down to 0. -/
def blankBelow : Nat → Buffer → Buffer
  | 0, b => b
  | k + 1, b => blankBelow k (writeRaw k 0 b)

/-- Step 9 (R90): every slot from the pointer down to 0 is blanked. -/
def renderPadding (pen : Pen) : Buffer := blankBelow (pen.p + 1).toNat pen.buf

/-- Steps 7 to 9 (R85 to R90). -/
def render (c : Config) (base : Nat) (fd : Int) (dv : Nat) (negative : Bool) (b : Buffer) : Buffer :=
  renderPadding (renderSign negative (renderDigits c base fd dv b))

/-- availableDigits (R78). -/
def availableDigits (negative : Bool) : Nat := if negative then 3 else 4

/-- The limit of step 4 (R82): `base^availableDigits`. -/
def limitOf (base : Nat) (negative : Bool) : Nat := base ^ availableDigits negative

/-- `value < 0`, the sign of step 1 (R78). -/
def isNegative {N : Type} (D : NumOps N) (x : N) : Bool := D.lt x (D.ofInt 0)

/-- The value of step 1 once its sign is taken off (R78). -/
def magnitude {N : Type} (D : NumOps N) (x : N) : N := if isNegative D x then D.neg x else x

/-- Steps 6 to 9 (R84 to R90) on the working values the loop of R83 leaves: the error pattern when
`scale < 1`, the rendering otherwise. The loop ends within its bound with `dv` below the limit (R96), so
the last arm's error pattern for any other `dv` is never taken (log 10). -/
def finish {N : Type} (D : NumOps N) (c : Config) (base limit : Nat) (negative : Bool) (w : Working N)
    (b : Buffer) : Buffer :=
  if D.lt w.scale (D.ofInt 1) then showError b
  else
    match w.dv with
    | .over => showError b
    | .int dv => if dv < limit then render c base w.fd dv negative b else showError b

/-- `Format(x, fd0, base)` (R76 to R90). -/
def formatValue {N : Type} (D : NumOps N) (c : Config) (x : N) (fd0 base : Nat) (b : Buffer) : Buffer :=
  let negative := isNegative D x
  let limit := limitOf base negative
  finish D c base limit negative (reduced D (magnitude D x) fd0 base limit) b

/-- The buffer an admitted FMT leaves (R93): the error pattern for a data word that is not finite (R77),
`Format(nOfBits(data), fd, base)` otherwise. -/
def formatBits {N : Type} (D : NumOps N) (c : Config) (data : DataWord) (fd0 base : Nat) (b : Buffer) :
    Buffer :=
  match D.ofBits data with
  | none => showError b
  | some x => formatValue D c x fd0 base b

/-- The buffer an admitted FMT leaves in the configured numeric domain (R9, R93). -/
def fmtBuffer (c : Config) (data : DataWord) (fd0 base : BitVec 8) (b : Buffer) : Buffer :=
  match c.num with
  | .binary64 => formatBits binary64Ops c data fd0.toNat base.toNat b
  | .exact => formatBits exactOps c data fd0.toNat base.toNat b

/-- The buffer an admitted FMTI leaves in the configured numeric domain (R9, R94). -/
def fmtiBuffer (c : Config) (data : DataWord) (fd0 base : BitVec 8) (b : Buffer) : Buffer :=
  match c.num with
  | .binary64 =>
    formatValue binary64Ops c (binary64Ops.ofInt (intValue data)) fd0.toNat base.toNat b
  | .exact => formatValue exactOps c (exactOps.ofInt (intValue data)) fd0.toNat base.toNat b

end Sys2Proof.Machine
end

