-- ==== Sys2Proof/WellFormed.lean ====
section
/-!
DEFINITION. What a command of R49 admits beyond the widths of its fields: the base of FMT and FMTI is
in 2..16 (R52, 30_encoding.md; BASE_MIN and BASE_MAX of R8, 00_scope.md).
-/
namespace Sys2Proof

/-- BASE_MIN to BASE_MAX (R8). -/
def baseAdmitted (base : BitVec 8) : Bool := 2 ≤ base.toNat && base.toNat ≤ 16

/-- Every field value is admitted but for the base of a format request (R43, R44, R52). -/
def Instr.wellFormed : Instr → Bool
  | .fmt _ _ base => baseAdmitted base
  | .fmti _ _ base => baseAdmitted base
  | .clear => true
  | .wraw _ _ => true
  | .wdig _ _ _ => true
  | .wsep _ => true
  | .wchr _ => true
  | .rcur => true
  | .rdbuf => true

end Sys2Proof
end

