-- ==== Sys2Proof/Machine/FormatCommands.lean ====
section
/-!
DEFINITION. The format commands FMT and FMTI (R93, R94, 43_formatter.md).
-/
namespace Sys2Proof.Machine

/-- FMT value, fd, base (R93). The decoder refuses a base outside 2..16 (R52); the meaning refuses it
again, so that it has no other effect on a command the decoder never gives (log 12). -/
def execFmt (value : DataWord) (fd base : BitVec 8) (s : State) : Host.Outcome State Fault Refusal :=
  if baseAdmitted base then
    .next ((s.withSlot (fmtBuffer s.config value fd base s.slot)).respond 0)
  else .next (s.takeRefusal .badBase)

/-- FMTI value, fd, base (R94), with the base as for FMT. -/
def execFmti (value : DataWord) (fd base : BitVec 8) (s : State) : Host.Outcome State Fault Refusal :=
  if baseAdmitted base then
    .next ((s.withSlot (fmtiBuffer s.config value fd base s.slot)).respond 0)
  else .next (s.takeRefusal .badBase)

end Sys2Proof.Machine
end

