-- ==== Sys2Proof/Machine/StreamCommands.lean ====
section
/-!
DEFINITION. The stream writer's commands WCHR and RCUR (R71 to R73, 42_stream.md).
-/
namespace Sys2Proof.Machine

/-- WCHR c (R72). A line end sets the cursor to 0. Any other character faults on an unwritten cursor, as
R72's pseudocode, R107, R120, decision D18 and I6 of 93_implementation_defined.md all say; a
digit is written at the cursor with the point off and answers 1, another character answers 0, and both
advance the cursor. -/
def execWchr (c : BitVec 8) (s : State) : Host.Outcome State Fault Refusal :=
  match charClass c, s.cursor with
  | .lineEnd, _ => .next ((s.withCursor 0).respond 0)
  | .digit _, .unwritten => .next (s.takeFault .readUnwrittenCursor)
  | .other, .unwritten => .next (s.takeFault .readUnwrittenCursor)
  | .digit d, .written cur =>
    .next (((s.withSlot (writeDigit s.config cur.toNat d false s.slot)).withCursor
      (advanceCursor cur)).respond 1)
  | .other, .written cur => .next ((s.withCursor (advanceCursor cur)).respond 0)

/-- RCUR (R73): the cursor is set to 0. -/
def execRcur (s : State) : Host.Outcome State Fault Refusal :=
  .next ((s.withCursor 0).respond 0)

end Sys2Proof.Machine
end

