-- ==== Sys2Proof/Machine/Dispatch.lean ====
section
/-! DEFINITION. The meaning of each command: one direct call per constructor (R49, 30_encoding.md). -/
namespace Sys2Proof.Machine

def exec (i : Instr) (s : State) : Host.Outcome State Fault Refusal :=
  match i with
  | .clear => Sys2Proof.Machine.execClear s
  | .wraw pos mask => Sys2Proof.Machine.execWraw pos mask s
  | .wdig pos digit dp => Sys2Proof.Machine.execWdig pos digit dp s
  | .wsep on => Sys2Proof.Machine.execWsep on s
  | .fmt value fd base => Sys2Proof.Machine.execFmt value fd base s
  | .fmti value fd base => Sys2Proof.Machine.execFmti value fd base s
  | .wchr c => Sys2Proof.Machine.execWchr c s
  | .rcur => Sys2Proof.Machine.execRcur s
  | .rdbuf => Sys2Proof.Machine.execRdbuf s

end Sys2Proof.Machine
end

