-- ==== Sys2Proof/Decode.lean ====
section
/-!
DEFINITION. The command decoder, total on every command word (R53, 30_encoding.md), and the encoder
written from the same formats (R43). A word is one of the nine commands of R49 or one refusal reason,
checked in the order of R108 (60_exceptions.md).
-/
namespace Sys2Proof

/-- The six formats of R43. -/
inductive Format where
  | n | p | d | s | f | c
  deriving DecidableEq, Repr

/-- The opcode `cmd[3:0]` (R42). -/
def opOf (cmd : CmdWord) : BitVec 4 := cmd.extractLsb' 0 4

/-- The format of each opcode of R49; none for the reserved opcodes 0x9..0xF (R50). -/
def formatOf (op : BitVec 4) : Option Format :=
  match op.toNat with
  | 0 => some .n
  | 1 => some .p
  | 2 => some .d
  | 3 => some .s
  | 4 => some .f
  | 5 => some .f
  | 6 => some .c
  | 7 => some .n
  | 8 => some .n
  | _ => none

/-- A format's own reserved field, above `cmd[7:4]`, is 0 (R43, R51). -/
def Format.fieldClear (fm : Format) (cmd : CmdWord) : Bool :=
  match fm with
  | .n => cmd.extractLsb' 8 24 == 0#24
  | .p => true
  | .d => cmd.extractLsb' 21 11 == 0#11
  | .s => cmd.extractLsb' 9 23 == 0#23
  | .f => cmd.extractLsb' 24 8 == 0#8
  | .c => cmd.extractLsb' 16 16 == 0#16

/-- `cmd[7:4]` and the format's own reserved field are 0 (R51). -/
def reservedClear (fm : Format) (cmd : CmdWord) : Bool :=
  cmd.extractLsb' 4 4 == 0#4 && fm.fieldClear cmd

/-- `pos`, `fd` and `c`: `cmd[15:8]` (R44). -/
def byteField (cmd : CmdWord) : BitVec 8 := cmd.extractLsb' 8 8

/-- `base`: `cmd[23:16]` (R44). -/
def baseField (cmd : CmdWord) : BitVec 8 := cmd.extractLsb' 16 8

/-- `mask`: `cmd[31:16]` (R44). -/
def maskField (cmd : CmdWord) : WideMask := cmd.extractLsb' 16 16

/-- `digit`: `cmd[19:16]` (R44). -/
def digitField (cmd : CmdWord) : BitVec 4 := cmd.extractLsb' 16 4

/-- `dp`: `cmd[20]` (R44). -/
def dpField (cmd : CmdWord) : Bool := cmd.getLsbD 20

/-- `on`: `cmd[8]` (R44). -/
def onField (cmd : CmdWord) : Bool := cmd.getLsbD 8

/-- The command an opcode and its operand fields spell, reserved bits aside (R44, R45, R46, R49). -/
def assemble (cmd : CmdWord) (data : DataWord) : Instr :=
  match (opOf cmd).toNat with
  | 0 => .clear
  | 1 => .wraw (byteField cmd) (maskField cmd)
  | 2 => .wdig (byteField cmd) (digitField cmd) (dpField cmd)
  | 3 => .wsep (onField cmd)
  | 4 => .fmt data (byteField cmd) (baseField cmd)
  | 5 => .fmti data (byteField cmd) (baseField cmd)
  | 6 => .wchr (byteField cmd)
  | 7 => .rcur
  | _ => .rdbuf

/-- The decoder (R53): the opcode is checked first, then the reserved fields, then the base (R108). -/
def decode (cmd : CmdWord) (data : DataWord) : Except RefusalReason Instr :=
  match formatOf (opOf cmd) with
  | none => .error .reservedOpcode
  | some fm =>
    if reservedClear fm cmd then
      if (assemble cmd data).wellFormed then .ok (assemble cmd data) else .error .badBase
    else .error .reservedField

/-- One bit as a field of a command word. -/
def bit (b : Bool) : BitVec 1 := BitVec.ofBool b

/-- The command word of a command, each written as the concatenation its rule gives (R66 to R73, R93,
R94). -/
def encodeCmd : Instr → CmdWord
  | .clear => 0#24 ++ 0#4 ++ 0x0#4
  | .wraw pos mask => mask ++ pos ++ 0#4 ++ 0x1#4
  | .wdig pos digit dp => 0#11 ++ bit dp ++ digit ++ pos ++ 0#4 ++ 0x2#4
  | .wsep on => 0#23 ++ bit on ++ 0#4 ++ 0x3#4
  | .fmt _ fd base => 0#8 ++ base ++ fd ++ 0#4 ++ 0x4#4
  | .fmti _ fd base => 0#8 ++ base ++ fd ++ 0#4 ++ 0x5#4
  | .wchr c => 0#16 ++ c ++ 0#4 ++ 0x6#4
  | .rcur => 0#24 ++ 0#4 ++ 0x7#4
  | .rdbuf => 0#24 ++ 0#4 ++ 0x8#4

/-- The data word of a command: the value of a format request (R45); 0 for the commands that ignore
it (R46). -/
def encodeData : Instr → DataWord
  | .fmt value _ _ => value
  | .fmti value _ _ => value
  | .clear => 0
  | .wraw _ _ => 0
  | .wdig _ _ _ => 0
  | .wsep _ => 0
  | .wchr _ => 0
  | .rcur => 0
  | .rdbuf => 0

/-- The two words of a command (R42). -/
def encode (i : Instr) : CmdWord × DataWord := (encodeCmd i, encodeData i)

/-- The command and data words in the numbering of spec/opcode_table.json: the command word is bits
31..0, the data word counts on from it (bits 95..32), and every bit above `nbits` is 0. -/
def tableWords (nbits w : Nat) : CmdWord × DataWord :=
  (BitVec.ofNat 32 (w % 2 ^ nbits), BitVec.ofNat 64 (w % 2 ^ nbits / 2 ^ 32))

/-- The command the decoder reads from an instruction given as the opcode table numbers its bits. -/
def decodeTableWord (nbits w : Nat) : Option Instr :=
  match decode (tableWords nbits w).1 (tableWords nbits w).2 with
  | .ok i => some i
  | .error _ => none

end Sys2Proof
end

