-- ==== Sys2Proof/Machine/Interface.lean ====
section
/-!
DEFINITION. The host's side of a transaction (R41, 30_encoding.md; R21, 10_state.md): which command is
presented next, the state in which it runs, and the two marks that end a run.
-/
namespace Sys2Proof.Machine

/-- The command the host presents next; none while the block waits (R121). -/
def State.presented (s : State) : Option Transaction := s.pending.head?

/-- The state with the presented command taken: the index moves on by one per transaction (R21). -/
def State.taken (s : State) : State := { s with pending := s.pending.tail, index := s.index + 1 }

/-- The decoder's answer on a transaction (R53). -/
def Transaction.decoded (t : Transaction) : Except RefusalReason Instr := decode t.cmd t.data

/-- The stop a marked state gives: it is never final and no later command of the run is performed (R106,
R107; 95_test_vectors.md section 7; log 3). -/
def State.stop? (s : State) : Option (Host.Outcome State Fault Refusal) :=
  if s.refused then some (.refused .refusedMark)
  else s.fault.head?.map Host.Outcome.fault

/-- A transaction presented as the next command, in place of the one presented before, if any. -/
def State.present (t : Transaction) (s : State) : State := { s with pending := t :: s.pending.tail }

end Sys2Proof.Machine
end

