-- ==== Sys2Proof/Machine/Step.lean ====
section
/-!
DEFINITION. One step: one whole transaction (R7, 00_scope.md; R35, 20_memory.md), and the placing of a
command for the next step.
-/
namespace Sys2Proof.Machine

/-- A state that carries a mark stops (R106, R107; log 3). Otherwise the presented command is taken and
either refused by the decoder (R53, R106) or performed; with none presented the block waits (R121). -/
def step (s : State) : Host.Outcome State Fault Refusal :=
  match s.stop? with
  | some o => o
  | none =>
    match s.presented with
    | none => .next s
    | some t =>
      match t.decoded with
      | .ok i => exec i s.taken
      | .error r => .next (s.taken.takeRefusal r)

/-- `s` with the instruction `w`, in the opcode table's bit numbering, presented as the next command: it
stands for the host's presenting of a command, which is how every program comes to run (log 4). -/
def State.withFetchWord (s : State) (nbits w : Nat) : State :=
  s.present ⟨(tableWords nbits w).1, (tableWords nbits w).2⟩

end Sys2Proof.Machine
end

