-- ==== Sys2Proof/Machine/Assembler.lean ====
section
/-!
DEFINITION. The assembler of R54 and the pseudo-instructions of R55 (30_encoding.md). Nothing in the
block depends on it: it gives a program's text the transactions the host presents. What the rule does
not say of the text's form is in log 16; a line the assembler cannot read has no translation.
-/
namespace Sys2Proof.Machine

/-- The pseudo-instructions of R55. -/
inductive Pseudo where
  | print (v : DataWord) (base : BitVec 8)
  | wstr (bytes : List (BitVec 8))
  | blank (pos : BitVec 8)
  | errpat
  deriving DecidableEq, Repr

/-- The expansion of a pseudo-instruction (R55). -/
def Pseudo.expand : Pseudo → List Instr
  | .print v base => [.fmti v 0 base]
  | .wstr bytes => bytes.map .wchr
  | .blank pos => [.wraw pos 0]
  | .errpat => [.wraw 0 0x40, .wraw 1 0x40, .wraw 2 0, .wraw 3 0x40, .wraw 4 0x40]

/-- The words of a command as the host presents them (R41, R42). -/
def Transaction.ofInstr (i : Instr) : Transaction := ⟨encodeCmd i, encodeData i⟩

/-- The pattern of a binary64 value (R45); a NaN gets the pattern vector V-F66 gives it. -/
def F64.toBits : F64 → DataWord
  | .nan => 0x7FF8000000000000
  | .inf s => BitVec.ofBool s ++ 0x7FF0000000000000#63
  | .fin s u =>
    let e := topBit u - 52
    BitVec.ofBool s ++ BitVec.ofNat 63 ((e <<< 52) + (u >>> e))

/-- A digit character's value, when it is below the base of the numeral. -/
def digitValue (base : Nat) (c : Char) : Option Nat :=
  let n := c.toNat
  let v :=
    if 0x30 ≤ n ∧ n ≤ 0x39 then n - 0x30
    else if 0x61 ≤ n ∧ n ≤ 0x66 then n - 0x57
    else if 0x41 ≤ n ∧ n ≤ 0x46 then n - 0x37
    else base
  if v < base then some v else none

/-- A non-empty numeral. -/
def numeral (base : Nat) (cs : List Char) : Option Nat :=
  if cs.isEmpty then none
  else cs.foldlM (fun n c => (digitValue base c).map (n * base + ·)) 0

/-- A number that must be below `2^w`. -/
def fits (w : Nat) (n : Nat) : Option (BitVec w) := if n < 1 <<< w then some (BitVec.ofNat w n) else none

/-- An unsigned integer operand, decimal or with 0x (R54). -/
def unsignedOperand (w : Nat) : List Char → Option (BitVec w)
  | '0' :: 'x' :: cs => (numeral 16 cs).bind (fits w)
  | cs => (numeral 10 cs).bind (fits w)

/-- The value operand of FMTI: a signed decimal, or a 0x integer, in the 64-bit range (R54). DESIGN CHOICE
(log 16), safe: "a signed decimal or `0x` integer" can be read with the sign on both forms; here only a decimal
takes one, so that `-0x5` has no translation, and a 0x integer is the 64-bit pattern. -/
def signedOperand : List Char → Option DataWord
  | '0' :: 'x' :: cs => (numeral 16 cs).bind (fits 64)
  | '-' :: cs => (numeral 10 cs).bind fun n => if n ≤ 1 <<< 63 then some (-BitVec.ofNat 64 n) else none
  | cs => (numeral 10 cs).bind fun n => if n < 1 <<< 63 then some (BitVec.ofNat 64 n) else none

/-- What stands before and after the first character of `seps`, if there is one. -/
def breakAt (seps : List Char) (cs : List Char) : List Char × Option (List Char) :=
  match cs with
  | [] => ([], none)
  | c :: rest =>
    if seps.contains c then ([], some rest)
    else ((c :: (breakAt seps rest).1), (breakAt seps rest).2)

/-- The power of ten of a decimal literal, with its sign. -/
def exponentPart : Option (List Char) → Option Int
  | none => some 0
  | some ('-' :: cs) => (numeral 10 cs).map fun n => -(n : Int)
  | some ('+' :: cs) => (numeral 10 cs).map fun n => (n : Int)
  | some cs => (numeral 10 cs).map fun n => (n : Int)

/-- `n * 10^e` as the nearest binary64 value, ties to even (R54). -/
def decimalToF64 (neg : Bool) (n : Nat) (e : Int) : F64 :=
  if 0 ≤ e then F64.round neg (n * Nat.pow 10 e.toNat * oneUnits) 1
  else F64.round neg (n * oneUnits) (Nat.pow 10 (-e).toNat)

/-- A decimal floating literal without its sign (R54). -/
def decimalLiteral (neg : Bool) (cs : List Char) : Option DataWord := do
  let (mantissa, ex) := breakAt ['e', 'E'] cs
  let (whole, frac) := breakAt ['.'] mantissa
  let digits := frac.getD []
  if whole.isEmpty || (frac.isSome && digits.isEmpty) then none
  let n ← numeral 10 (whole ++ digits)
  let e ← exponentPart ex
  return (decimalToF64 neg n (e - digits.length)).toBits

/-- The value operand of FMT: `bits:0x` and 16 hex digits, `inf`, `-inf`, `nan`, or a decimal floating
literal (R54). -/
def floatOperand : List Char → Option DataWord
  | ['i', 'n', 'f'] => some (F64.inf false).toBits
  | ['-', 'i', 'n', 'f'] => some (F64.inf true).toBits
  | ['n', 'a', 'n'] => some F64.nan.toBits
  | 'b' :: 'i' :: 't' :: 's' :: ':' :: '0' :: 'x' :: cs =>
    if cs.length = 16 then (numeral 16 cs).bind (fits 64) else none
  | '-' :: cs => decimalLiteral true cs
  | cs => decimalLiteral false cs

/-- An ASCII character's code. -/
def asciiByte (c : Char) : Option (BitVec 8) :=
  if c.toNat < 128 then some (BitVec.ofNat 8 c.toNat) else none

/-- The operand of WCHR: a character literal, the escapes for 0x0A and 0x0D, or an integer (R54). DESIGN
CHOICE (log 16), safe: R54 does not say which characters a literal may hold beside the two escapes; here it is
any one ASCII character, so that a quote between quotes is 0x27 and a lone backslash 0x5C, and no other
escape has a translation. -/
def charOperand : List Char → Option (BitVec 8)
  | ['\'', '\\', 'n', '\''] => some 0x0A
  | ['\'', '\\', 'r', '\''] => some 0x0D
  | ['\'', c, '\''] => asciiByte c
  | cs => unsignedOperand 8 cs

/-- The operand of WSTR: the bytes between the first and the last double quote (R55). DESIGN CHOICE (log
16), safe: R54 gives its escapes for WCHR's character literal only, so a backslash here is an ordinary byte,
and so is a quote between the two. -/
def stringOperand : List Char → Option (List (BitVec 8))
  | '"' :: cs => if cs.getLast? = some '"' then cs.dropLast.mapM asciiByte else none
  | _ => none

/-- A one-bit operand: 0 or 1 (R54). -/
def bitOperand (cs : List Char) : Option Bool := (unsignedOperand 1 cs).map (· == 1#1)

/-- Blanks off both ends. -/
def trimBlanks (cs : List Char) : List Char :=
  ((cs.dropWhile (·.isWhitespace)).reverse.dropWhile (·.isWhitespace)).reverse

/-- The text split at a separator that stands outside quotes. DESIGN CHOICE (log 16), safe: a quote opens and
the next one of its kind closes, so the third quote of WCHR's quote literal opens again: what follows on its
line, a comment too, is not split off, and such a line has no translation. -/
def splitOutside (sep : Char) : Option Char → List Char → List (List Char)
  | _, [] => [[]]
  | quote, c :: cs =>
    if quote = none ∧ c = sep then [] :: splitOutside sep none cs
    else
      let quote' :=
        match quote with
        | none => if c = '\'' ∨ c = '"' then some c else none
        | some q => if c = q then none else some q
      match splitOutside sep quote' cs with
      | [] => [[c]]
      | part :: parts => (c :: part) :: parts

/-- A mnemonic with its operands as commands (R54, R55); none for a form the rules do not give. -/
def translate (mnemonic : String) (ops : List (List Char)) : Option (List Instr) :=
  match mnemonic, ops with
  | "CLEAR", [] => some [.clear]
  | "WRAW", [p, m] => do return [.wraw (← unsignedOperand 8 p) (← unsignedOperand 16 m)]
  | "WDIG", [p, d] => do return [.wdig (← unsignedOperand 8 p) (← unsignedOperand 4 d) false]
  | "WDIG", [p, d, b] => do
    return [.wdig (← unsignedOperand 8 p) (← unsignedOperand 4 d) (← bitOperand b)]
  | "WSEP", [b] => do return [.wsep (← bitOperand b)]
  | "FMT", [v, fd, base] => do
    return [.fmt (← floatOperand v) (← unsignedOperand 8 fd) (← unsignedOperand 8 base)]
  | "FMTI", [v, fd, base] => do
    return [.fmti (← signedOperand v) (← unsignedOperand 8 fd) (← unsignedOperand 8 base)]
  | "WCHR", [c] => do return [.wchr (← charOperand c)]
  | "RCUR", [] => some [.rcur]
  | "RDBUF", [] => some [.rdbuf]
  | "PRINT", [v, base] => do
    return (Pseudo.print (← signedOperand v) (← unsignedOperand 8 base)).expand
  | "WSTR", [s] => do return (Pseudo.wstr (← stringOperand s)).expand
  | "BLANK", [p] => do return (Pseudo.blank (← unsignedOperand 8 p)).expand
  | "ERRPAT", [] => some Pseudo.errpat.expand
  | _, _ => none

/-- One line: a comment from `;` on, then a mnemonic and its operands; an empty line is no command
(R54). -/
def assembleLine (line : List Char) : Option (List Instr) :=
  let text := trimBlanks ((splitOutside ';' none line).headD [])
  let (mnemonic, rest) := breakAt [' ', '\t'] text
  let operands := trimBlanks (rest.getD [])
  if text.isEmpty then some []
  else
    translate (String.ofList mnemonic)
      (if operands.isEmpty then [] else (splitOutside ',' none operands).map trimBlanks)

/-- A program's text, one command per line (R54), as the transactions the host presents. -/
def assembleProgram (lines : List (List Char)) : Option (List Transaction) :=
  (lines.mapM assembleLine).map fun is => is.flatten.map Transaction.ofInstr

end Sys2Proof.Machine
end

