-- ==== Sys2Proof/Machine/Variants.lean ====
section
/-!
DEFINITION. The two other blocks the spec declares equal to the one of Sys2Proof/Machine/Format.lean: the
reduction loop guarded by `fd >= 0` (R97, 43_formatter.md) and the digit loop that stops once the slot
pointer is below 0 (R98). Neither is part of a step; statements compare them with the block.
-/
namespace Sys2Proof.Machine

/-- The loop of R83 that ends also when `fd` becomes -1 (R97). -/
def guardedLoop {N : Type} (D : NumOps N) (value : N) (base limit : Nat) : Nat → Working N → Working N
  | 0, w => w
  | k + 1, w =>
    if w.dv.reaches limit && decide (0 ≤ w.fd) then
      guardedLoop D value base limit k (reducePass D value base w)
    else w

/-- Steps 2 to 5 with the guarded loop, which runs at most `fd0 + 1` times (R97). -/
def guardedReduced {N : Type} (D : NumOps N) (value : N) (fd0 base limit : Nat) : Working N :=
  let scale := scaleOf D base fd0
  guardedLoop D value base limit (fd0 + 1) ⟨fd0, scale, D.round (D.mul value scale)⟩

/-- `Format` with the guarded loop (R97). -/
def formatValueGuarded {N : Type} (D : NumOps N) (c : Config) (x : N) (fd0 base : Nat) (b : Buffer) :
    Buffer :=
  let negative := isNegative D x
  let limit := limitOf base negative
  finish D c base limit negative (guardedReduced D (magnitude D x) fd0 base limit) b

/-- The loop of R85 that stops also when `p < 0` (R98). -/
def renderLoopEarly (c : Config) (base : Nat) (fd : Int) : Nat → Nat → Nat → Pen → Pen
  | 0, _, _, pen => pen
  | k + 1, i, dv, pen =>
    if (dv ≠ 0 ∨ (i : Int) ≤ fd) ∧ 0 ≤ pen.p then
      renderLoopEarly c base fd k (i + 1) (dv / base)
        (emitDigit c (BitVec.ofNat 4 (dv % base)) (pointAt fd i) pen)
    else pen

/-- Steps 7 to 9 with the loop of R98. -/
def renderEarly (c : Config) (base : Nat) (fd : Int) (dv : Nat) (negative : Bool) (b : Buffer) : Buffer :=
  renderPadding (renderSign negative
    (if dv = 0 then ⟨writeDigit c 4 0 false b, 3⟩ else renderLoopEarly c base fd maxTurns 0 dv ⟨b, 4⟩))

end Sys2Proof.Machine
end

