-- ==== Sys2Proof/Safety.lean ====
section
/-!
DEFINITION. The terms claims are stated in: which states a run may end in (R106, R107,
60_exceptions.md), what every state a run reaches satisfies, and the patterns and numbers the rules
name.
-/
namespace Sys2Proof.Machine

/-- A state that may be final: no refused mark and an empty fault list (R106, R107). -/
abbrev State.Unmarked (s : State) : Prop := s.refused = false ∧ s.fault = []

/-- Every slot has been written (R120). -/
abbrev Buffer.AllWritten (b : Buffer) : Prop :=
  b.slot0 ≠ .unwritten ∧ b.slot1 ≠ .unwritten ∧ b.slot2 ≠ .unwritten ∧ b.slot3 ≠ .unwritten ∧
    b.slot4 ≠ .unwritten

/-- The cursor holds one of the values R18 allows: 0, 1, 3, 4 or 5; or none yet. -/
abbrev Reg.CursorLegal (r : Reg 3) : Prop :=
  r = .unwritten ∨ r = .written 0 ∨ r = .written 1 ∨ r = .written 3 ∨ r = .written 4 ∨ r = .written 5

/-- Every slot and the cursor have been written, so that no command faults (R120, R122). -/
abbrev State.Readable (s : State) : Prop := s.slot.AllWritten ∧ s.cursor ≠ .unwritten

/-- The invariant of the machine: a legal cursor (R18) and a font with every bit 7 clear (R57). -/
abbrev State.Legal (s : State) : Prop := s.cursor.CursorLegal ∧ s.config.FontOk

/-- The error pattern (R92, R12): 0x40 in every numeric slot, 0 in the separator slot. -/
def Buffer.errorPattern : Buffer :=
  ⟨.written 0x40, .written 0x40, .written 0, .written 0x40, .written 0x40⟩

/-- How many decimal points a register shows: 1 when it holds a mask with bit 7 set (R14). -/
def Reg.points : Reg 8 → Nat
  | .unwritten => 0
  | .written v => if v.getLsbD 7 then 1 else 0

/-- How many decimal points the numeric slots show (R86). -/
def Buffer.points (b : Buffer) : Nat :=
  b.slot0.points + b.slot1.points + b.slot3.points + b.slot4.points

/-- Digit `k` of `dv` is emitted (R85, R99): there are digits left, or `fd + 1` digits are not out yet. -/
def digitEmitted (base : Nat) (fd : Int) (dv k : Nat) : Bool :=
  decide (base ^ k ≤ dv) || decide ((k : Int) ≤ fd)

/-- The mask of the numeric slot that digit `k` is meant for (R99): the digit with its point (R86), the
sign to the left of the last digit emitted (R89), or blank (R90). -/
def numeralMask (c : Config) (base : Nat) (fd : Int) (dv : Nat) (negative : Bool) (k : Nat) : Mask :=
  if digitEmitted base fd dv k then
    segmentsFor c (BitVec.ofNat 4 (dv / base ^ k % base)) |||
      (if fd ≠ 0 ∧ (k : Int) = fd then 0x80#8 else 0#8)
  else if negative ∧ digitEmitted base fd dv (k - 1) then 0x40#8
  else 0#8

/-- What the display shows for `dv` with `fd` fractional digits (R85 to R90): its numeral, digit 0 at slot
4 and digits 1, 2, 3 at slots 3, 1, 0 (R99); a single 0 for 0 (R88), under a sign at slot 3 when the value
is negative (R101). -/
def numeralBuffer (c : Config) (base : Nat) (fd : Int) (dv : Nat) (negative : Bool) : Buffer :=
  if dv = 0 then
    ⟨.written 0, .written 0, .written 0, .written (if negative then 0x40#8 else 0#8),
      .written (segmentsFor c 0)⟩
  else
    ⟨.written (numeralMask c base fd dv negative 3), .written (numeralMask c base fd dv negative 2),
      .written 0, .written (numeralMask c base fd dv negative 1),
      .written (numeralMask c base fd dv negative 0)⟩

/-- The reserved bits of a command word whose opcode is defined (R43, R51). -/
def reservedBits (op : BitVec 4) : CmdWord :=
  match op.toNat with
  | 1 => 0x000000F0
  | 2 => 0xFFE000F0
  | 3 => 0xFFFFFEF0
  | 4 => 0xFF0000F0
  | 5 => 0xFF0000F0
  | 6 => 0xFFFF00F0
  | _ => 0xFFFFFFF0

/-- The units of a finite binary64 magnitude: at most 53 significant bits, below 2^1024 (R11). -/
def Representable (u : Nat) : Prop := ∃ m e, m < 2 ^ 53 ∧ u = m * 2 ^ e ∧ u < 2 ^ 2098

/-- How far `v` units are from the number `n / d`, in units of `1 / d`. -/
def distance (n d v : Nat) : Nat := ((v * d : Int) - n).natAbs

/-- The last of the 53 significant bits of a magnitude is 0. -/
def EvenInLastPlace (u : Nat) : Prop := u / 2 ^ (u.log2 - 52) % 2 = 0

/-- The least magnitude that rounds to infinity: halfway from the largest finite number to 2^1024. -/
def overflowBound : Rat := (2 ^ 54 - 1) * 2 ^ 970

/-- The magnitude of `u` units. -/
def unitsValue (u : Nat) : Rat := u / 2 ^ 1074

/-- `r` is the binary64 number that the exact result `q` rounds to (R11): infinite of its sign from
`overflowBound` on; below it finite of its sign, no other binary64 magnitude closer, a tie going to the one
even in its last place. -/
def F64.IsRounded (r : F64) (q : Rat) : Prop :=
  match r with
  | .nan => False
  | .inf neg => overflowBound ≤ if neg then -q else q
  | .fin neg u =>
    |q| < overflowBound ∧ (q ≠ 0 → neg = decide (q < 0)) ∧ Representable u ∧
      ∀ v, Representable v →
        abs (unitsValue u - |q|) ≤ abs (unitsValue v - |q|) ∧
          (abs (unitsValue u - |q|) = abs (unitsValue v - |q|) → v ≠ u → EvenInLastPlace u)

/-- `floor(m * base^k + 1/2)`: the integer that EXACT rounds `m * base^k` to (R81). -/
def exactDisplay (m : Rat) (base k : Nat) : Nat := (m * (base : Rat) ^ k + 1 / 2).floor.toNat

end Sys2Proof.Machine
end

