-- ==== Sys2Proof/Certificates/Slice0/Obligations.lean ====
section
/-!
DEFINITION. The statements for the provers. Each docstring names the rules of spec/ it formalises.
-/

open Sys2Proof Sys2Proof.Machine

/-! ### Reset, the step and the decoder -/

/-- R119: slots and cursor unwritten, no fault, not refused, the font the constant FONT (R62). -/
def Obligations.ResetLeavesEverythingUnwritten : Prop :=
  State.reset.slot = ⟨.unwritten, .unwritten, .unwritten, .unwritten, .unwritten⟩ ∧
    State.reset.cursor = .unwritten ∧ State.reset.fault = [] ∧ State.reset.refused = false ∧
    State.reset.config.font =
      #v[0x3F, 0x06, 0x5B, 0x4F, 0x66, 0x6D, 0x7D, 0x07, 0x7F, 0x6F, 0x77, 0x7C, 0x39, 0x5E, 0x79, 0x71]

/-- R63 of the table of R62: sixteen distinct entries, none blank, none the sign mask; R57: bit 7 clear. -/
def Obligations.StandardFontEntriesDistinct : Prop :=
  (∀ d e : BitVec 4, segmentsFor State.reset.config d = segmentsFor State.reset.config e → d = e) ∧
    ∀ d : BitVec 4, segmentsFor State.reset.config d ≠ 0x00 ∧ segmentsFor State.reset.config d ≠ 0x40 ∧
      (segmentsFor State.reset.config d).getLsbD 7 = false

/-- Words of the spec's examples decode to their commands (the model of R41 to R49, with the model's
encoding tests beside it). -/
def Obligations.ExampleWordsDecode : Prop :=
  decode 0x00000000 7 = .ok .clear ∧ decode 0x12340201 0 = .ok (.wraw 2 0x1234) ∧
    decode 0x00150402 0 = .ok (.wdig 4 5 true) ∧ decode 0x00000103 0 = .ok (.wsep true) ∧
    decode 0x000A0104 0x3FF8000000000000 = .ok (.fmt 0x3FF8000000000000 1 10) ∧
    decode 0x000A0005 0xFFFFFFFFFFFFFFFB = .ok (.fmti 0xFFFFFFFFFFFFFFFB 0 10) ∧
    decode 0x00003706 0 = .ok (.wchr 0x37) ∧ decode 0x00000007 0 = .ok .rcur ∧
    decode 0x00000008 0 = .ok .rdbuf

/-- A step performs the command the presented words decode to, on the state with the transaction taken
off the host's sequence (R21, R41). -/
def Obligations.StepRunsDecodedCommand : Prop :=
  ∀ (s : State) (t : Transaction) (rest : List Transaction) (i : Instr),
    s.Unmarked → s.pending = t :: rest → decode t.cmd t.data = .ok i →
      step s = exec i { s with pending := rest, index := s.index + 1 }

/-- R106: a word the decoder refuses sets the refused mark and changes no slot and no cursor. -/
def Obligations.StepRefusesUndecodableWord : Prop :=
  ∀ (s : State) (t : Transaction) (rest : List Transaction) (r : RefusalReason),
    s.Unmarked → s.pending = t :: rest → decode t.cmd t.data = .error r →
      step s = .next { s with pending := rest, index := s.index + 1, refused := true, reply := .refused r }

/-- R121: with no command presented the block waits. -/
def Obligations.StepWaitsForCommand : Prop :=
  ∀ s : State, s.Unmarked → s.pending = [] → step s = .next s

/-- The model's choice of log 3 for R106 and R107: a marked state is never final, and no step leaves it. -/
def Obligations.MarkedStateHasNoNext : Prop :=
  ∀ s : State, ¬ s.Unmarked → ∀ t, step s ≠ .next t

/-- The decoder gives back every well-formed command from its two words, each field at every value. -/
def Obligations.DecodeOfEncode : Prop :=
  ∀ i : Instr, i.wellFormed = true → decode (encode i).1 (encode i).2 = .ok i

/-- R53: a word that decodes has one meaning: it is the command word of a well-formed command, and for FMT
and FMTI the data word is its value (R45). -/
def Obligations.EncodeOfDecode : Prop :=
  ∀ (cmd : CmdWord) (data : DataWord) (i : Instr), decode cmd data = .ok i →
    i.wellFormed = true ∧ encodeCmd i = cmd ∧
      ((cmd.extractLsb' 0 4 = 4#4 ∨ cmd.extractLsb' 0 4 = 5#4) → encodeData i = data)

/-- R50, R51, R52 in the order of R108: which words are refused, and for which reason. -/
def Obligations.RefusalReasonsInOrder : Prop :=
  ∀ (cmd : CmdWord) (data : DataWord),
    let op := cmd.extractLsb' 0 4
    let base := (cmd.extractLsb' 16 8).toNat
    (9 ≤ op.toNat → decode cmd data = .error .reservedOpcode) ∧
      (op.toNat < 9 → cmd &&& reservedBits op ≠ 0 → decode cmd data = .error .reservedField) ∧
      (op.toNat < 9 → cmd &&& reservedBits op = 0 →
        ((op = 4#4 ∨ op = 5#4) ∧ ¬ (2 ≤ base ∧ base ≤ 16) → decode cmd data = .error .badBase) ∧
          (¬ ((op = 4#4 ∨ op = 5#4) ∧ ¬ (2 ≤ base ∧ base ≤ 16)) → ∃ i, decode cmd data = .ok i))

/-- R46: every command other than FMT and FMTI ignores the data word: neither what it decodes to nor what
the step that takes it answers depends on it. -/
def Obligations.DataWordIgnored : Prop :=
  ∀ (cmd : CmdWord) (d1 d2 : DataWord), cmd.extractLsb' 0 4 ≠ 4#4 → cmd.extractLsb' 0 4 ≠ 5#4 →
    decode cmd d1 = decode cmd d2 ∧
      ∀ (s : State) (rest : List Transaction),
        step { s with pending := ⟨cmd, d1⟩ :: rest } = step { s with pending := ⟨cmd, d2⟩ :: rest }

/-! ### The digit buffer commands -/

/-- R66: the word 0x00000000 is CLEAR; it stores 0 in all five slots and answers 0; nothing else changes,
the cursor included. -/
def Obligations.ClearZeroesAllSlots : Prop :=
  (∀ data : DataWord, decode 0x00000000 data = .ok .clear) ∧
    ∀ s : State, exec .clear s = .next { s with
      slot := ⟨.written 0, .written 0, .written 0, .written 0, .written 0⟩, reply := .word 0 }

/-- R67: WRAW's word carries its mask and position; it stores the mask at the position, slot 2 whole, a
numeric slot its low eight bits, and above 4 nothing; the answer is 0 and nothing else changes. -/
def Obligations.WrawStoresAtItsPosition : Prop :=
  ∀ (pos : BitVec 8) (mask : WideMask),
    (∀ data : DataWord, decode (mask ++ pos ++ 0#4 ++ 0x1#4) data = .ok (.wraw pos mask)) ∧
    ∀ s : State, exec (.wraw pos mask) s = .next { s with
      slot :=
        if pos = 0 then { s.slot with slot0 := .written (mask.extractLsb' 0 8) }
        else if pos = 1 then { s.slot with slot1 := .written (mask.extractLsb' 0 8) }
        else if pos = 2 then { s.slot with slot2 := .written mask }
        else if pos = 3 then { s.slot with slot3 := .written (mask.extractLsb' 0 8) }
        else if pos = 4 then { s.slot with slot4 := .written (mask.extractLsb' 0 8) }
        else s.slot,
      reply := .word 0 }

/-- R68: WDIG's word carries its point, digit and position; it stores the font entry of the digit, with
bit 7 set for dp = 1, at the position (zero-extended at slot 2, dropped above 4); the answer is 0 and
nothing else changes. -/
def Obligations.WdigStoresGlyph : Prop :=
  ∀ (pos : BitVec 8) (digit : BitVec 4) (dp : Bool),
    (∀ data : DataWord, decode (0#11 ++ BitVec.ofBool dp ++ digit ++ pos ++ 0#4 ++ 0x2#4) data =
      .ok (.wdig pos digit dp)) ∧
    ∀ s : State,
      let m : Mask := s.config.font[digit.toFin] ||| (if dp then 0x80#8 else 0#8)
      exec (.wdig pos digit dp) s = .next { s with
        slot :=
          if pos = 0 then { s.slot with slot0 := .written m }
          else if pos = 1 then { s.slot with slot1 := .written m }
          else if pos = 2 then { s.slot with slot2 := .written (0#8 ++ m) }
          else if pos = 3 then { s.slot with slot3 := .written m }
          else if pos = 4 then { s.slot with slot4 := .written m }
          else s.slot,
        reply := .word 0 }

/-- R69: WSEP's word carries its state; it stores SEP_ON or 0 in slot 2; the answer is 0 and nothing else
changes. -/
def Obligations.WsepSetsSeparator : Prop :=
  ∀ on : Bool,
    (∀ data : DataWord, decode (0#23 ++ BitVec.ofBool on ++ 0#4 ++ 0x3#4) data = .ok (.wsep on)) ∧
    ∀ s : State, exec (.wsep on) s = .next { s with
      slot := { s.slot with slot2 := .written (if on then s.config.sepOn else 0) }, reply := .word 0 }

/-- R70 (with R48's packing): the word 0x00000008 is RDBUF. With every slot written it answers the slots
at their fixed bit positions and changes nothing else; with some slot unwritten it appends
ReadUnwrittenSlot to the fault list and changes no slot and no cursor (R107). -/
def Obligations.RdbufReturnsSlotsOrFaults : Prop :=
  (∀ data : DataWord, decode 0x00000008 data = .ok .rdbuf) ∧
    (∀ (s : State) (v0 v1 v3 v4 : BitVec 8) (v2 : BitVec 16),
      s.slot = ⟨.written v0, .written v1, .written v2, .written v3, .written v4⟩ →
        ∃ rsp : RspWord, exec .rdbuf s = .next { s with reply := .word rsp } ∧
          rsp.extractLsb' 0 8 = v0 ∧ rsp.extractLsb' 8 8 = v1 ∧ rsp.extractLsb' 16 16 = v2 ∧
          rsp.extractLsb' 32 8 = v3 ∧ rsp.extractLsb' 40 8 = v4 ∧ rsp.extractLsb' 48 16 = 0) ∧
    ∀ s : State, ¬ s.slot.AllWritten → exec .rdbuf s = .next { s with
      fault := s.fault ++ [.readUnwrittenSlot], reply := .faulted .readUnwrittenSlot }

/-- R64, the primitive itself: at every integer position `WriteRaw` stores the mask in slot 2 whole, its
low eight bits in a numeric slot, and nothing below 0 or above 4. -/
def Obligations.WriteRawStoresOrDrops : Prop :=
  ∀ (m : WideMask) (b : Buffer),
    writeRaw 2 m b = { b with slot2 := .written m } ∧
      writeRaw 0 m b = { b with slot0 := .written (m.extractLsb' 0 8) } ∧
      writeRaw 1 m b = { b with slot1 := .written (m.extractLsb' 0 8) } ∧
      writeRaw 3 m b = { b with slot3 := .written (m.extractLsb' 0 8) } ∧
      writeRaw 4 m b = { b with slot4 := .written (m.extractLsb' 0 8) } ∧
      ∀ p : Int, p < 0 ∨ 4 < p → writeRaw p m b = b

/-- R65, the primitive itself: `WriteDigit` is `WriteRaw` of the zero-extended font entry with bit 7 set
for dp = 1. -/
def Obligations.WriteDigitWritesFontEntry : Prop :=
  ∀ (c : Config) (p : Int) (d : BitVec 4) (dp : Bool) (b : Buffer),
    writeDigit c p d dp b = writeRaw p (0#8 ++ (c.font[d.toFin] ||| (BitVec.ofBool dp ++ 0#7))) b

/-! ### The stream writer -/

/-- R72, the whole transition. The word of WCHR carries its character. A line end sets the cursor to 0
whatever it held and answers 0. On an unwritten cursor any other character appends ReadUnwrittenCursor to
the fault list and changes no slot and no cursor (R107). A digit is written at the cursor with the point
off (at 5 nowhere) and answers 1; another character is dropped and answers 0; both move the cursor 0, 1,
3, 4, 5, 5. Nothing else changes. -/
def Obligations.WchrFollowsItsTransition : Prop :=
  (∀ (c : BitVec 8) (data : DataWord), decode (0#16 ++ c ++ 0#4 ++ 0x6#4) data = .ok (.wchr c)) ∧
  (∀ (c : BitVec 8) (s : State), c = 0x0A ∨ c = 0x0D →
    exec (.wchr c) s = .next { s with cursor := .written 0, reply := .word 0 }) ∧
  (∀ (c : BitVec 8) (s : State), c ≠ 0x0A → c ≠ 0x0D → s.cursor = .unwritten →
    exec (.wchr c) s = .next { s with
      fault := s.fault ++ [.readUnwrittenCursor], reply := .faulted .readUnwrittenCursor }) ∧
  (∀ (c : BitVec 8) (d : BitVec 4) (s : State), c = 0x3#4 ++ d → d.toNat ≤ 9 →
    (s.cursor = .written 0 → exec (.wchr c) s = .next { s with
      slot := { s.slot with slot0 := .written s.config.font[d.toFin] }, cursor := .written 1,
      reply := .word 1 }) ∧
    (s.cursor = .written 1 → exec (.wchr c) s = .next { s with
      slot := { s.slot with slot1 := .written s.config.font[d.toFin] }, cursor := .written 3,
      reply := .word 1 }) ∧
    (s.cursor = .written 3 → exec (.wchr c) s = .next { s with
      slot := { s.slot with slot3 := .written s.config.font[d.toFin] }, cursor := .written 4,
      reply := .word 1 }) ∧
    (s.cursor = .written 4 → exec (.wchr c) s = .next { s with
      slot := { s.slot with slot4 := .written s.config.font[d.toFin] }, cursor := .written 5,
      reply := .word 1 }) ∧
    (s.cursor = .written 5 → exec (.wchr c) s = .next { s with reply := .word 1 })) ∧
  ∀ (c : BitVec 8) (s : State), c ≠ 0x0A → c ≠ 0x0D → (c.toNat < 0x30 ∨ 0x39 < c.toNat) →
    (s.cursor = .written 0 → exec (.wchr c) s = .next { s with cursor := .written 1, reply := .word 0 }) ∧
    (s.cursor = .written 1 → exec (.wchr c) s = .next { s with cursor := .written 3, reply := .word 0 }) ∧
    (s.cursor = .written 3 → exec (.wchr c) s = .next { s with cursor := .written 4, reply := .word 0 }) ∧
    (s.cursor = .written 4 → exec (.wchr c) s = .next { s with cursor := .written 5, reply := .word 0 }) ∧
    (s.cursor = .written 5 → exec (.wchr c) s = .next { s with cursor := .written 5, reply := .word 0 })

/-- R73: the word 0x00000007 is RCUR; it sets the cursor to 0 whatever it held, answers 0 and changes
nothing else. That the line end 0x0A does the same is an inference R73 marks as its own ("has the same
effect on the cursor as `WCHR '\n'`", derived from rules R72 and R73). -/
def Obligations.RcurSetsCursorZero : Prop :=
  (∀ data : DataWord, decode 0x00000007 data = .ok .rcur) ∧
    ∀ s : State, exec .rcur s = .next { s with cursor := .written 0, reply := .word 0 } ∧
      exec (.wchr 0x0A) s = exec .rcur s

/-- R74: from cursor 0, four consecutive digits land in slots 0, 1, 3, 4 in that order and leave the
cursor at 5. That under any characters but line ends the cursor runs 0, 1, 3, 4, 5, 5 is an inference R74
marks as its own (derived from rule R72). -/
def Obligations.FourDigitsFillTheNumericSlots : Prop :=
  (∀ (d0 d1 d2 d3 : BitVec 4) (s s1 s2 s3 s4 : State),
    d0.toNat ≤ 9 → d1.toNat ≤ 9 → d2.toNat ≤ 9 → d3.toNat ≤ 9 → s.cursor = .written 0 →
    exec (.wchr (0x3#4 ++ d0)) s = .next s1 → exec (.wchr (0x3#4 ++ d1)) s1 = .next s2 →
    exec (.wchr (0x3#4 ++ d2)) s2 = .next s3 → exec (.wchr (0x3#4 ++ d3)) s3 = .next s4 →
      s4.slot = ⟨.written (segmentsFor s.config d0), .written (segmentsFor s.config d1), s.slot.slot2,
        .written (segmentsFor s.config d2), .written (segmentsFor s.config d3)⟩ ∧
        s4.cursor = .written 5) ∧
  ∀ (c : BitVec 8) (s t : State), c ≠ 0x0A → c ≠ 0x0D → exec (.wchr c) s = .next t →
    (s.cursor = .written 0 → t.cursor = .written 1) ∧ (s.cursor = .written 1 → t.cursor = .written 3) ∧
    (s.cursor = .written 3 → t.cursor = .written 4) ∧ (s.cursor = .written 4 → t.cursor = .written 5) ∧
    (s.cursor = .written 5 → t.cursor = .written 5)

/-- R75: with a legal cursor (R18) the stream writer never writes slot 2. -/
def Obligations.StreamNeverWritesSeparator : Prop :=
  ∀ (c : BitVec 8) (s t : State), s.cursor.CursorLegal → exec (.wchr c) s = .next t →
    t.slot.slot2 = s.slot.slot2

/-! ### The formatter -/

/-- The spec's derived property of 43_formatter.md section 4: an admitted FMT or FMTI completes with
answer 0; it writes all five slots, 0 into slot 2; nothing but the slots and the answer changes. Its word
carries its base and fd, its data word the value. -/
def Obligations.FormatWritesEverySlot : Prop :=
  ∀ (value : DataWord) (fd base : BitVec 8), 2 ≤ base.toNat → base.toNat ≤ 16 →
    decode (0#8 ++ base ++ fd ++ 0#4 ++ 0x4#4) value = .ok (.fmt value fd base) ∧
    decode (0#8 ++ base ++ fd ++ 0#4 ++ 0x5#4) value = .ok (.fmti value fd base) ∧
    ∀ s : State,
      (∃ b : Buffer, exec (.fmt value fd base) s = .next { s with slot := b, reply := .word 0 } ∧
        b.AllWritten ∧ b.slot2 = .written 0) ∧
      ∃ b : Buffer, exec (.fmti value fd base) s = .next { s with slot := b, reply := .word 0 } ∧
        b.AllWritten ∧ b.slot2 = .written 0

/-- The spec's derived property of 43_formatter.md section 4: the buffer an FMT or FMTI leaves depends on its operands, FONT and NUM alone, not on the buffer
before it or on SEP_ON. -/
def Obligations.FormatIgnoresPriorBuffer : Prop :=
  ∀ (value : DataWord) (fd base : BitVec 8) (s s' t t' : State),
    s.config.font = s'.config.font → s.config.num = s'.config.num →
    2 ≤ base.toNat → base.toNat ≤ 16 →
    (exec (.fmt value fd base) s = .next t → exec (.fmt value fd base) s' = .next t' →
      t.slot = t'.slot) ∧
    (exec (.fmti value fd base) s = .next t → exec (.fmti value fd base) s' = .next t' →
      t.slot = t'.slot)

/-- The model's choice of log 12, after R52: a base outside 2..16 gives FMT and FMTI no other effect than the refusal. -/
def Obligations.FormatRefusesBadBase : Prop :=
  ∀ (value : DataWord) (fd base : BitVec 8) (s : State), ¬ (2 ≤ base.toNat ∧ base.toNat ≤ 16) →
    exec (.fmt value fd base) s = .next { s with refused := true, reply := .refused .badBase } ∧
      exec (.fmti value fd base) s = .next { s with refused := true, reply := .refused .badBase }

/-- R77, R92: an infinity or NaN pattern (all exponent bits set) shows the error pattern, in both numeric
domains. -/
def Obligations.NonFiniteShowsErrorPattern : Prop :=
  ∀ (value : DataWord) (fd base : BitVec 8) (s : State), value.extractLsb' 52 11 = 2047#11 →
    2 ≤ base.toNat → base.toNat ≤ 16 →
    exec (.fmt value fd base) s = .next { s with
      slot := ⟨.written 0x40, .written 0x40, .written 0, .written 0x40, .written 0x40⟩,
      reply := .word 0 }

/-- R88: a value of exactly zero, of either sign in FMT (R78), shows a single 0 in slot 4 whatever fd is,
in both numeric domains. -/
def Obligations.ZeroShowsSingleDigit : Prop :=
  ∀ (value : DataWord) (fd base : BitVec 8) (s : State),
    value = 0x0000000000000000 ∨ value = 0x8000000000000000 → 2 ≤ base.toNat → base.toNat ≤ 16 →
    exec (.fmt value fd base) s = .next { s with
      slot := ⟨.written 0, .written 0, .written 0, .written 0, .written (segmentsFor s.config 0)⟩,
      reply := .word 0 } ∧
    exec (.fmti 0 fd base) s = .next { s with
      slot := ⟨.written 0, .written 0, .written 0, .written 0, .written (segmentsFor s.config 0)⟩,
      reply := .word 0 }

/-- R85 to R91, R99: rendering lays out the digits of `dv`, digit k at the k-th numeric slot from the
right, zeros until fd + 1 digits are out, the point on digit fd, then the sign, then blanks; what reaches
past slot 0 is dropped. The closed form is the law of R99 and R101, which the spec marks as derived. -/
def Obligations.RenderLaysOutNumeral : Prop :=
  ∀ (c : Config) (base dv : Nat) (fd : Int) (negative : Bool) (b : Buffer),
    2 ≤ base → base ≤ 16 → dv < 65536 → fd ≤ 255 →
      render c base fd dv negative b = numeralBuffer c base fd dv negative

/-- R99, R100 for integers at fd 0: a value from 0 to base^4 - 1 shows its numeral with no sign and no
point, in both numeric domains. -/
def Obligations.IntegerShowsItsNumeral : Prop :=
  ∀ (value : DataWord) (base : BitVec 8) (s : State), 2 ≤ base.toNat → base.toNat ≤ 16 →
    0 ≤ value.toInt → value.toInt < base.toNat ^ 4 →
      exec (.fmti value 0 base) s = .next { s with
        slot := numeralBuffer s.config base.toNat 0 value.toInt.natAbs false, reply := .word 0 }

/-- R78, R89 for integers at fd 0: a value from -(base^3 - 1) to -1 shows the numeral of its magnitude
with the sign at the next slot to the left, in both numeric domains. -/
def Obligations.NegativeIntegerShowsSign : Prop :=
  ∀ (value : DataWord) (base : BitVec 8) (s : State), 2 ≤ base.toNat → base.toNat ≤ 16 →
    value.toInt < 0 → -((base.toNat : Int) ^ 3) < value.toInt →
      exec (.fmti value 0 base) s = .next { s with
        slot := numeralBuffer s.config base.toNat 0 value.toInt.natAbs true, reply := .word 0 }

/-- R103 for integers at fd 0: a value of base^4 or more, or of -(base^3) or less, shows the error
pattern, in both numeric domains. -/
def Obligations.UnrenderableIntegerShowsError : Prop :=
  ∀ (value : DataWord) (base : BitVec 8) (s : State), 2 ≤ base.toNat → base.toNat ≤ 16 →
    ((base.toNat : Int) ^ 4 ≤ value.toInt ∨ value.toInt ≤ -((base.toNat : Int) ^ 3)) →
      exec (.fmti value 0 base) s = .next { s with slot := Buffer.errorPattern, reply := .word 0 }

/-- R100 in EXACT, for FMT and FMTI at every fd: the error pattern when the value rounded to an integer has
too many digits, and otherwise the value rounded half up to k fractional digits, where k is the largest count
not above fd at which the rounded value fits. -/
def Obligations.ExactFormatShowsRoundedValue : Prop :=
  ∀ (value : DataWord) (fd base : BitVec 8) (s : State) (i : Instr) (x : Rat), s.config.num = .exact →
    2 ≤ base.toNat → base.toNat ≤ 16 →
    (i = .fmt value fd base ∧ (F64.ofBits value).toRat? = some x ∨
      i = .fmti value fd base ∧ x = (value.toInt : Rat)) →
    (base.toNat ^ (if x < 0 then 3 else 4) ≤ exactDisplay |x| base.toNat 0 →
      exec i s = .next { s with slot := Buffer.errorPattern, reply := .word 0 }) ∧
    ∀ k : Nat, k ≤ fd.toNat →
      exactDisplay |x| base.toNat k < base.toNat ^ (if x < 0 then 3 else 4) →
      (k = fd.toNat ∨ base.toNat ^ (if x < 0 then 3 else 4) ≤ exactDisplay |x| base.toNat (k + 1)) →
        exec i s = .next { s with
          slot := numeralBuffer s.config base.toNat k (exactDisplay |x| base.toNat k) (decide (x < 0)),
          reply := .word 0 }

/-- R86: with a font whose entries have bit 7 clear (R57), at most one numeric slot shows a decimal point
after an FMT or FMTI. -/
def Obligations.AtMostOneDecimalPoint : Prop :=
  ∀ (value : DataWord) (fd base : BitVec 8) (s t : State), s.config.FontOk →
    2 ≤ base.toNat → base.toNat ≤ 16 →
    (exec (.fmt value fd base) s = .next t ∨ exec (.fmti value fd base) s = .next t) →
      t.slot.points ≤ 1

/-- R96: the loop of R83 has ended within fd0 + 1025 passes, with the integer below the limit, for every
finite value in both numeric domains. -/
def Obligations.ReductionEndsWithinBound : Prop :=
  ∀ (data : DataWord) (fd0 : BitVec 8) (base : Nat), 2 ≤ base → base ≤ 16 →
    (∀ x : F64, binary64Ops.ofBits data = some x ∨ x = binary64Ops.ofInt data.toInt →
      (reduced binary64Ops (magnitude binary64Ops x) fd0.toNat base
        (limitOf base (isNegative binary64Ops x))).dv.reaches
          (limitOf base (isNegative binary64Ops x)) = false) ∧
    ∀ x : Rat, exactOps.ofBits data = some x ∨ x = exactOps.ofInt data.toInt →
      (reduced exactOps (magnitude exactOps x) fd0.toNat base
        (limitOf base (isNegative exactOps x))).dv.reaches
          (limitOf base (isNegative exactOps x)) = false

/-- R79, R80, R83, in every numeric domain: `scale` starts as 1 multiplied fd0 times by the base and `dv` as
the rounded product of the value with it; a pass takes one from `fd`, divides `scale` by the base and rounds
the product of the value with the new `scale`. The loop's result is the k-th pass from there, with
`fd = fd0 - k`; every pass before it left an integer at or above the limit, and it ended only because the
integer is below the limit or the allowance of R96 is used up (ReductionEndsWithinBound). -/
def Obligations.ReductionStopsAtFirstFit : Prop :=
  ∀ (N : Type) (D : NumOps N) (value : N) (fd0 base limit : Nat),
    let scale : N := (fun x => D.mul x (D.ofInt base))^[fd0] (D.ofInt 1)
    let start : Working N := ⟨fd0, scale, D.round (D.mul value scale)⟩
    let pass : Working N → Working N := fun w =>
      ⟨w.fd - 1, D.div w.scale base, D.round (D.mul value (D.div w.scale base))⟩
    ∃ k : Nat, k ≤ fd0 + 1025 ∧
      reduced D value fd0 base limit = pass^[k] start ∧
      (reduced D value fd0 base limit).fd = (fd0 : Int) - k ∧
      (∀ j, j < k → (pass^[j] start).dv.reaches limit = true) ∧
      (k < fd0 + 1025 → (reduced D value fd0 base limit).dv.reaches limit = false)

/-- R78, R84 to R90 in BINARY64, for FMT of a finite value and FMTI at every fd: the error pattern when the
reduction (ReductionStopsAtFirstFit) leaves `scale < 1`, and otherwise the numeral of the integer it leaves,
which is below the limit, with the `fd` it leaves and the sign of step 1. -/
def Obligations.BinaryFormatShowsReducedNumeral : Prop :=
  ∀ (value : DataWord) (fd base : BitVec 8) (s : State) (i : Instr) (x : F64),
    s.config.num = .binary64 → 2 ≤ base.toNat → base.toNat ≤ 16 →
    (i = .fmt value fd base ∧ binary64Ops.ofBits value = some x ∨
      i = .fmti value fd base ∧ x = binary64Ops.ofInt value.toInt) →
    let negative := binary64Ops.lt x (binary64Ops.ofInt 0)
    let limit := base.toNat ^ (if negative then 3 else 4)
    let w := reduced binary64Ops (if negative then binary64Ops.neg x else x) fd.toNat base.toNat limit
    (binary64Ops.lt w.scale (binary64Ops.ofInt 1) = true →
      exec i s = .next { s with slot := Buffer.errorPattern, reply := .word 0 }) ∧
    (binary64Ops.lt w.scale (binary64Ops.ofInt 1) = false →
      ∃ dv, w.dv = .int dv ∧ dv < limit ∧ exec i s = .next { s with
        slot := numeralBuffer s.config base.toNat w.fd dv negative, reply := .word 0 })

/-- R96: 256 turns are enough for the loop of R85: more turns change nothing. -/
def Obligations.DigitLoopEndsWithinBound : Prop :=
  ∀ (c : Config) (base dv extra : Nat) (fd : Int) (pen : Pen), 2 ≤ base → dv < 65536 → fd ≤ 255 →
    renderLoop c base fd (maxTurns + extra) 0 dv pen = renderLoop c base fd maxTurns 0 dv pen

/-- R97: the loop guarded by fd >= 0 leaves the same buffer, for FMT and FMTI in both numeric domains. -/
def Obligations.GuardedReductionSameBuffer : Prop :=
  ∀ (c : Config) (data : DataWord) (fd0 : BitVec 8) (base : Nat) (b : Buffer), 2 ≤ base → base ≤ 16 →
    (∀ x : F64, binary64Ops.ofBits data = some x ∨ x = binary64Ops.ofInt data.toInt →
      formatValueGuarded binary64Ops c x fd0.toNat base b =
        formatValue binary64Ops c x fd0.toNat base b) ∧
    ∀ x : Rat, exactOps.ofBits data = some x ∨ x = exactOps.ofInt data.toInt →
      formatValueGuarded exactOps c x fd0.toNat base b = formatValue exactOps c x fd0.toNat base b

/-- R98: a digit loop that stops as soon as the slot pointer is below 0 leaves the same buffer. -/
def Obligations.EarlyStopSameBuffer : Prop :=
  ∀ (c : Config) (base dv : Nat) (fd : Int) (negative : Bool) (b : Buffer),
    renderEarly c base fd dv negative b = render c base fd dv negative b

/-- R45 (the binary64 layout): a pattern with exponent field 0 stands for fraction times 2^-1074, one with
exponent field 1 to 2046 for (1 + fraction / 2^52) times 2^(exponent - 1023), each with its sign; with 2047
for no number. -/
def Obligations.PatternHasItsBinary64Value : Prop :=
  ∀ b : DataWord,
    let sign : Rat := if b.getLsbD 63 then -1 else 1
    let ex := (b.extractLsb' 52 11).toNat
    let fr : Rat := (b.extractLsb' 0 52).toNat
    (ex = 0 → (F64.ofBits b).toRat? = some (sign * fr / 2 ^ 1074)) ∧
      (0 < ex → ex < 2047 →
        (F64.ofBits b).toRat? = some (sign * (1 + fr / 2 ^ 52) * (2 : Rat) ^ ((ex : Int) - 1023))) ∧
      (ex = 2047 → (F64.ofBits b).toRat? = none ∧ binary64Ops.ofBits b = none)

/-- R54's `bits:` form and its decimal form meet: the pattern of a finite value is the pattern it was read
from. -/
def Obligations.PatternOfFiniteValue : Prop :=
  ∀ b : DataWord, nIsFinite b = true → (F64.ofBits b).toBits = b

/-- R11: in BINARY64 an operation's exact result `n / d` (in units of 2^-1074) is rounded to the nearest
binary64 number, a tie to the one even in its last place, and to infinity exactly from the middle between
the largest finite number and 2^1024 on. That finite numbers are held in units of 2^-1074 and rounded once
is log 8 (DEDUCED). -/
def Obligations.RoundsToNearestEven : Prop :=
  ∀ (neg : Bool) (n d : Nat), 0 < d →
    ((2 ^ 54 - 1) * 2 ^ 2044 * d ≤ n → F64.round neg n d = .inf neg) ∧
    (n < (2 ^ 54 - 1) * 2 ^ 2044 * d → ∃ u, F64.round neg n d = .fin neg u ∧ Representable u ∧
      ∀ v, Representable v → distance n d u ≤ distance n d v ∧
        (distance n d u = distance n d v → v ≠ u → EvenInLastPlace u))

/-- R11 (BINARY64, log 8): `nmul` of finite numbers is their exact product rounded once; a product of zero
has the exclusive or of the signs. -/
def Obligations.ProductRoundedOnce : Prop :=
  (∀ (a b : F64) (x y : Rat), a.toRat? = some x → b.toRat? = some y →
    (binary64Ops.mul a b).IsRounded (x * y)) ∧
  ∀ (s t : Bool) (u v : Nat), u = 0 ∨ v = 0 → binary64Ops.mul (.fin s u) (.fin t v) = .fin (s ^^ t) 0

/-- R11 (BINARY64, log 8): `ndiv` of a finite number by a positive integer is their exact quotient rounded
once; a zero keeps its sign. -/
def Obligations.QuotientRoundedOnce : Prop :=
  ∀ k : Nat, 0 < k →
    (∀ (a : F64) (x : Rat), a.toRat? = some x → (binary64Ops.div a k).IsRounded (x / k)) ∧
    ∀ s : Bool, binary64Ops.div (.fin s 0) k = .fin s 0

/-- R11 (BINARY64, log 8): `nadd` of finite numbers is their exact sum rounded once; a sum of zero is +0
unless both terms are -0. -/
def Obligations.SumRoundedOnce : Prop :=
  ∀ (a b : F64) (x y : Rat), a.toRat? = some x → b.toRat? = some y →
    (F64.add a b).IsRounded (x + y) ∧
      (x + y = 0 → F64.add a b = .fin (decide (a = .fin true 0 ∧ b = .fin true 0)) 0)

/-- R11 (BINARY64, log 8): `nOfInt` is the integer rounded once, for FMTI's 64-bit integers (R45) and every
other; 0 is +0. -/
def Obligations.IntegerRoundedOnce : Prop :=
  (∀ i : Int, (binary64Ops.ofInt i).IsRounded i) ∧ binary64Ops.ofInt 0 = .fin false 0

/-- R11, R80 (BINARY64, log 8): on finite numbers `nlt` is the order of the values, so that -0 is not below
0, and `nneg` is exact. `nround` of a number that is not negative is the integer part of its sum with 1/2,
that sum rounded once, or OVER when the sum is +infinity. -/
def Obligations.ComparisonNegationAndNround : Prop :=
  (∀ (a b : F64) (x y : Rat), a.toRat? = some x → b.toRat? = some y →
    binary64Ops.lt a b = decide (x < y)) ∧
  (∀ (a : F64) (x : Rat), a.toRat? = some x → (binary64Ops.neg a).toRat? = some (-x)) ∧
  (∀ (a : F64) (x : Rat), a.toRat? = some x → 0 ≤ x →
    ∃ sum : F64, sum.IsRounded (x + 1 / 2) ∧
      (sum = .inf false ∧ binary64Ops.round a = .over ∨
        ∃ z : Rat, sum.toRat? = some z ∧ binary64Ops.round a = .int z.floor.toNat)) ∧
  binary64Ops.round (.inf false) = .over

/-! ### The machine as a whole -/

/-- R18, R57: every step keeps the cursor at 0, 1, 3, 4, 5 or unwritten and the font's bits 7 clear. -/
def Obligations.StepKeepsLegal : Prop :=
  ∀ s t : State, s.Legal → step s = .next t → t.Legal

/-- The invariant holds at reset. -/
def Obligations.ResetIsLegal : Prop := State.reset.Legal

/-- R13: FONT, SEP_ON and NUM are constants, so no step changes them; of the font R20 and R60 say it too. That
they stand in State at all is log 1 (DESIGN CHOICE). -/
def Obligations.StepKeepsConfiguration : Prop :=
  ∀ s t : State, step s = .next t → t.config = s.config

/-- R106, R107: no command clears the refused mark or takes an entry off the fault list. -/
def Obligations.MarksAreNeverCleared : Prop :=
  ∀ (i : Instr) (s t : State), exec i s = .next t →
    (s.refused = true → t.refused = true) ∧ s.fault <+: t.fault

/-- R106, R107, R109: a step that sets a mark changes no slot and no cursor. -/
def Obligations.MarkingStepChangesNoSlotNoCursor : Prop :=
  ∀ s t : State, step s = .next t → ¬ t.Unmarked → t.slot = s.slot ∧ t.cursor = s.cursor

/-- R109, R47: every well-formed command, on readable operands (every slot written for RDBUF, the cursor
written or a line end for WCHR), completes with a response word and no new mark; the response is 0 but
for WCHR and RDBUF. -/
def Obligations.CommandsComplete : Prop :=
  ∀ (i : Instr) (s : State), i.wellFormed = true → (i = .rdbuf → s.slot.AllWritten) →
    (∀ c, i = .wchr c → c = 0x0A ∨ c = 0x0D ∨ s.cursor ≠ .unwritten) →
    ∃ (t : State) (rsp : RspWord), exec i s = .next t ∧ t.reply = .word rsp ∧ t.fault = s.fault ∧
      t.refused = s.refused ∧ (i ≠ .rdbuf → (∀ c, i ≠ .wchr c) → rsp = 0)

/-- R19: no command but WCHR and RCUR touches the cursor. -/
def Obligations.CursorTouchedOnlyByStream : Prop :=
  ∀ (i : Instr) (s t : State), (∀ c, i ≠ .wchr c) → i ≠ .rcur → exec i s = .next t →
    t.cursor = s.cursor

/-- R33: every well-formed command but WCHR is idempotent, RDBUF on written slots. -/
def Obligations.CommandsIdempotent : Prop :=
  ∀ (i : Instr) (s t : State), i.wellFormed = true → (∀ c, i ≠ .wchr c) →
    (i = .rdbuf → s.slot.AllWritten) → exec i s = .next t → exec i t = .next t

/-- R122: after CLEAR and RCUR every slot and the cursor are written, so that no RDBUF and no WCHR
faults. -/
def Obligations.BootMakesEverythingReadable : Prop :=
  ∀ s t u : State, exec .clear s = .next t → exec .rcur t = .next u →
    u.slot.AllWritten ∧ u.cursor = .written 0 ∧ u.fault = s.fault ∧
      (∃ v, exec .rdbuf u = .next v ∧ v.fault = s.fault) ∧
      ∀ c, ∃ v, exec (.wchr c) u = .next v ∧ v.fault = s.fault

/-- R17, R120, R122: what has been written stays written, slot by slot and for the cursor; and once every
slot and the cursor are written no step faults and they stay so. -/
def Obligations.StepKeepsReadable : Prop :=
  ∀ s t : State, step s = .next t →
    (s.Readable → t.Readable ∧ t.fault = s.fault) ∧
      (s.slot.slot0 ≠ .unwritten → t.slot.slot0 ≠ .unwritten) ∧
      (s.slot.slot1 ≠ .unwritten → t.slot.slot1 ≠ .unwritten) ∧
      (s.slot.slot2 ≠ .unwritten → t.slot.slot2 ≠ .unwritten) ∧
      (s.slot.slot3 ≠ .unwritten → t.slot.slot3 ≠ .unwritten) ∧
      (s.slot.slot4 ≠ .unwritten → t.slot.slot4 ≠ .unwritten) ∧
      (s.cursor ≠ .unwritten → t.cursor ≠ .unwritten)

/-- R55: the expansions of PRINT, WSTR, BLANK and ERRPAT. -/
def Obligations.PseudoExpansions : Prop :=
  (∀ v base, (Pseudo.print v base).expand = [.fmti v 0 base]) ∧
    (∀ bytes, (Pseudo.wstr bytes).expand = bytes.map fun c => .wchr c) ∧
    (∀ pos, (Pseudo.blank pos).expand = [.wraw pos 0]) ∧
    Pseudo.errpat.expand = [.wraw 0 0x40, .wraw 1 0x40, .wraw 2 0, .wraw 3 0x40, .wraw 4 0x40]

/-- R55, R92: ERRPAT's five commands leave the buffer of the Error Indicator, from every state. -/
def Obligations.ErrpatLeavesErrorPattern : Prop :=
  ∀ s s1 s2 s3 s4 s5 : State,
    exec (.wraw 0 0x40) s = .next s1 → exec (.wraw 1 0x40) s1 = .next s2 →
    exec (.wraw 2 0) s2 = .next s3 → exec (.wraw 3 0x40) s3 = .next s4 →
    exec (.wraw 4 0x40) s4 = .next s5 →
      s5.slot = showError s.slot ∧
        s5.slot = ⟨.written 0x40, .written 0x40, .written 0, .written 0x40, .written 0x40⟩

/-- Lines in the syntax of R54 (and R55's PRINT) assemble to the commands they spell; the two FMT lines are
vectors V-F4 and V-F65, and the last follows from R54's sentence on an omitted dp. -/
def Obligations.ExampleLinesAssemble : Prop :=
  assembleLine "PRINT 1234, 10".toList = some [.fmti 1234 0 10] ∧
    assembleLine "FMT 12.345, 2, 10 ; V-F4".toList = some [.fmt 0x4028B0A3D70A3D71 2 10] ∧
    assembleLine "FMT -inf, 2, 10".toList = some [.fmt 0xFFF0000000000000 2 10] ∧
    assembleLine "WCHR '7'".toList = some [.wchr 0x37] ∧
    assembleLine "WDIG 4, 5".toList = some [.wdig 4 5 false]
end

