-- ==== Sys2Proof/Laws/Decode.lean ====
section
/-!
SUPPORT. The fields of a command word written as a concatenation: 24 bits of operands, the reserved 0000,
and the opcode (R42, R43, 30_encoding.md). Each field of the word is a field of its operand bits.
-/
namespace Sys2Proof

/-- A command word from its operand bits `cmd[31:8]` and its opcode. -/
def operandWord (hi : BitVec 24) (op : BitVec 4) : CmdWord := hi ++ 0#4 ++ op

/-- A field that lies in the operand bits of a word, at any width of them. -/
theorem extract_operand_bits {w : Nat} (hi : BitVec w) (op : BitVec 4) (k n : Nat) :
    (hi ++ 0#4 ++ op).extractLsb' (k + 8) n = hi.extractLsb' k n := by
  ext j hj
  have h4 : ¬ k + 8 + j < 4 := by omega
  have h8 : ¬ k + 8 + j - 4 < 4 := by omega
  have e : k + 8 + j - 4 - 4 = k + j := by omega
  simp [BitVec.getLsbD_append, h4, h8, e]

/-- The opcode of a word, at any width of the operand bits. -/
theorem extract_opcode {w : Nat} (hi : BitVec w) (op : BitVec 4) :
    (hi ++ 0#4 ++ op).extractLsb' 0 4 = op := by
  ext j hj
  simp [BitVec.getLsbD_append, hj]

/-- `cmd[7:4]` of a word, at any width of the operand bits. -/
theorem extract_reserved {w : Nat} (hi : BitVec w) (op : BitVec 4) :
    (hi ++ 0#4 ++ op).extractLsb' 4 4 = 0#4 := by
  ext j hj
  simp [BitVec.getLsbD_append, hj]

/-- One bit of the operand bits of a word, at any width of them. -/
theorem getLsbD_operand_bits {w : Nat} (hi : BitVec w) (op : BitVec 4) (k : Nat) :
    (hi ++ 0#4 ++ op).getLsbD (k + 8) = hi.getLsbD k := by
  have h4 : ¬ k + 8 < 4 := by omega
  simp [BitVec.getLsbD_append, h4]

variable (hi : BitVec 24) (op : BitVec 4)

@[simp] theorem opOf_operandWord : opOf (operandWord hi op) = op := extract_opcode hi op
@[simp] theorem byteField_operandWord : byteField (operandWord hi op) = hi.extractLsb' 0 8 :=
  extract_operand_bits hi op 0 8
@[simp] theorem baseField_operandWord : baseField (operandWord hi op) = hi.extractLsb' 8 8 :=
  extract_operand_bits hi op 8 8
@[simp] theorem maskField_operandWord : maskField (operandWord hi op) = hi.extractLsb' 8 16 :=
  extract_operand_bits hi op 8 16
@[simp] theorem digitField_operandWord : digitField (operandWord hi op) = hi.extractLsb' 8 4 :=
  extract_operand_bits hi op 8 4
@[simp] theorem dpField_operandWord : dpField (operandWord hi op) = hi.getLsbD 12 :=
  getLsbD_operand_bits hi op 12
@[simp] theorem onField_operandWord : onField (operandWord hi op) = hi.getLsbD 0 :=
  getLsbD_operand_bits hi op 0

/-- The reserved fields of a word, format by format, in its operand bits (R51). -/
theorem reservedClear_operandWord (fm : Format) :
    reservedClear fm (operandWord hi op) =
      match fm with
      | .n => hi.extractLsb' 0 24 == 0#24
      | .p => true
      | .d => hi.extractLsb' 13 11 == 0#11
      | .s => hi.extractLsb' 1 23 == 0#23
      | .f => hi.extractLsb' 16 8 == 0#8
      | .c => hi.extractLsb' 8 16 == 0#16 := by
  have h : (operandWord hi op).extractLsb' 4 4 = 0#4 := extract_reserved hi op
  have hn : (operandWord hi op).extractLsb' 8 24 = hi.extractLsb' 0 24 := extract_operand_bits hi op 0 24
  have hd : (operandWord hi op).extractLsb' 21 11 = hi.extractLsb' 13 11 := extract_operand_bits hi op 13 11
  have hs : (operandWord hi op).extractLsb' 9 23 = hi.extractLsb' 1 23 := extract_operand_bits hi op 1 23
  have hf : (operandWord hi op).extractLsb' 24 8 = hi.extractLsb' 16 8 := extract_operand_bits hi op 16 8
  have hc : (operandWord hi op).extractLsb' 16 16 = hi.extractLsb' 8 16 := extract_operand_bits hi op 8 16
  cases fm <;> simp [reservedClear, Format.fieldClear, h, hn, hd, hs, hf, hc]

end Sys2Proof
end

