-- ==== Sys2Proof/Laws/Num.lean ====
section
/-!
SUPPORT. The binary64 rounding in the usual terms: `Nat.log2` and powers of two in place of the searches
and shifts the machine evaluates.
-/
namespace Sys2Proof.Machine

/-- Below its bound the halving search finds the highest set bit. -/
theorem topBitFrom_eq_log2 (k n : Nat) (h : n < 2 ^ 2 ^ k) : topBitFrom k n = n.log2 := by
  induction k generalizing n with
  | zero =>
    have : n = 0 ∨ n = 1 := by simp at h; omega
    rcases this with rfl | rfl <;> decide
  | succ k ih =>
    have hsq : 2 ^ 2 ^ (k + 1) = 2 ^ 2 ^ k * 2 ^ 2 ^ k := by rw [← pow_add, pow_succ]; ring_nf
    simp only [topBitFrom, Nat.shiftLeft_eq, Nat.one_mul, Nat.shiftRight_eq_div_pow]
    have hpos : 0 < 2 ^ 2 ^ k := by positivity
    split
    · next h0 => exact ih n ((Nat.div_eq_zero_iff_lt hpos).mp h0)
    · next h0 =>
      have hn : n ≠ 0 := by rintro rfl; simp at h0
      rw [ih _ (Nat.div_lt_of_lt_mul (hsq ▸ h)), eq_comm, Nat.log2_eq_iff hn]
      obtain ⟨l, u⟩ := (Nat.log2_eq_iff h0).mp rfl
      rw [Nat.le_div_iff_mul_le hpos] at l
      rw [Nat.div_lt_iff_lt_mul hpos] at u
      exact ⟨by rw [pow_add]; exact l, by rw [add_right_comm, pow_add]; exact u⟩

/-- From its bound on the search answers the highest position it looks at. -/
theorem topBitFrom_of_le (k n : Nat) (h : 2 ^ 2 ^ k ≤ n) : topBitFrom k n + 1 = 2 ^ k := by
  induction k generalizing n with
  | zero => rfl
  | succ k ih =>
    have hsq : 2 ^ 2 ^ (k + 1) = 2 ^ 2 ^ k * 2 ^ 2 ^ k := by rw [← pow_add, pow_succ]; ring_nf
    have hpos : 0 < 2 ^ 2 ^ k := by positivity
    have hge : 2 ^ 2 ^ k ≤ n / 2 ^ 2 ^ k := (Nat.le_div_iff_mul_le hpos).mpr (hsq ▸ h)
    simp only [topBitFrom, Nat.shiftLeft_eq, Nat.one_mul, Nat.shiftRight_eq_div_pow]
    rw [if_neg (by omega), add_right_comm, ih _ hge, pow_succ]
    omega

/-- Rounding to nearest never falls below the floor. -/
theorem le_divNearestEven (n d : Nat) : n / d ≤ divNearestEven n d := by
  simp only [divNearestEven]
  split_ifs <;> omega

/-- A rounding step of at least `2^(e-52)` on a number of at least `2^e` keeps `2^e`. -/
theorem round_keeps {n d e t : Nat} (h : 2 ^ (e + t) ≤ n / d) :
    2 ^ (e + t) ≤ divNearestEven n (d * 2 ^ e) * 2 ^ e := by
  have hq : 2 ^ t ≤ n / (d * 2 ^ e) := by
    rw [← Nat.div_div_eq_div_mul, Nat.le_div_iff_mul_le (by positivity), ← pow_add, add_comm]
    exact h
  calc 2 ^ (e + t) = 2 ^ t * 2 ^ e := by rw [pow_add, mul_comm]
    _ ≤ _ := Nat.mul_le_mul_right _ (hq.trans (le_divNearestEven _ _))

/-- `F64.round` with the exponent taken from `Nat.log2` and powers of two, for every operand (R11). -/
theorem F64.round_eq (neg : Bool) (n d : Nat) :
    F64.round neg n d =
      if divNearestEven n (d * 2 ^ ((n / d).log2 - 52)) * 2 ^ ((n / d).log2 - 52) < 2 ^ 2098 then
        .fin neg (divNearestEven n (d * 2 ^ ((n / d).log2 - 52)) * 2 ^ ((n / d).log2 - 52))
      else .inf neg := by
  simp only [F64.round, roundExponent, topBit, overflowUnits, Nat.shiftLeft_eq, Nat.one_mul]
  rcases lt_or_ge (n / d) (2 ^ 2 ^ 13) with h | h
  · rw [topBitFrom_eq_log2 13 _ h]
  · have hb := topBitFrom_of_le 13 _ h
    have hn : n / d ≠ 0 := by have : 0 < 2 ^ 2 ^ 13 := by positivity
                              omega
    have hl : 2 ^ 13 ≤ (n / d).log2 := (Nat.le_log2 hn).mpr h
    have hpow : ∀ a, 2098 ≤ a → 2 ^ 2098 ≤ 2 ^ a := fun a ha => Nat.pow_le_pow_right (by norm_num) ha
    have h1 : 2 ^ ((topBitFrom 13 (n / d) - 52) + 52) ≤ n / d := by
      refine le_trans (Nat.pow_le_pow_right (by norm_num) ?_) h
      omega
    have h2 : 2 ^ (((n / d).log2 - 52) + 52) ≤ n / d := by
      rw [Nat.sub_add_cancel (by omega)]
      exact Nat.log2_self_le hn
    rw [if_neg (by have := hpow _ (show 2098 ≤ (topBitFrom 13 (n / d) - 52) + 52 by omega)
                   have := round_keeps h1
                   omega),
      if_neg (by have := hpow _ (show 2098 ≤ ((n / d).log2 - 52) + 52 by omega)
                 have := round_keeps h2
                 omega)]

end Sys2Proof.Machine
end

