-- ==== Sys2Proof/Laws/State.lean ====
section
/-!
SUPPORT. What each update of the state leaves in each field: one lemma per field per update, so that no
proof unfolds a record update.
-/
namespace Sys2Proof.Machine

variable (s : State)

@[simp] theorem State.respond_slot (rsp : RspWord) : (s.respond rsp).slot = s.slot := rfl
@[simp] theorem State.respond_cursor (rsp : RspWord) : (s.respond rsp).cursor = s.cursor := rfl
@[simp] theorem State.respond_fault (rsp : RspWord) : (s.respond rsp).fault = s.fault := rfl
@[simp] theorem State.respond_refused (rsp : RspWord) : (s.respond rsp).refused = s.refused := rfl
@[simp] theorem State.respond_config (rsp : RspWord) : (s.respond rsp).config = s.config := rfl
@[simp] theorem State.respond_pending (rsp : RspWord) : (s.respond rsp).pending = s.pending := rfl
@[simp] theorem State.respond_index (rsp : RspWord) : (s.respond rsp).index = s.index := rfl
@[simp] theorem State.respond_reply (rsp : RspWord) : (s.respond rsp).reply = .word rsp := rfl

@[simp] theorem State.withSlot_slot (b : Buffer) : (s.withSlot b).slot = b := rfl
@[simp] theorem State.withSlot_cursor (b : Buffer) : (s.withSlot b).cursor = s.cursor := rfl
@[simp] theorem State.withSlot_fault (b : Buffer) : (s.withSlot b).fault = s.fault := rfl
@[simp] theorem State.withSlot_refused (b : Buffer) : (s.withSlot b).refused = s.refused := rfl
@[simp] theorem State.withSlot_config (b : Buffer) : (s.withSlot b).config = s.config := rfl
@[simp] theorem State.withSlot_pending (b : Buffer) : (s.withSlot b).pending = s.pending := rfl
@[simp] theorem State.withSlot_index (b : Buffer) : (s.withSlot b).index = s.index := rfl
@[simp] theorem State.withSlot_reply (b : Buffer) : (s.withSlot b).reply = s.reply := rfl

@[simp] theorem State.withCursor_slot (c : BitVec 3) : (s.withCursor c).slot = s.slot := rfl
@[simp] theorem State.withCursor_cursor (c : BitVec 3) : (s.withCursor c).cursor = .written c := rfl
@[simp] theorem State.withCursor_fault (c : BitVec 3) : (s.withCursor c).fault = s.fault := rfl
@[simp] theorem State.withCursor_refused (c : BitVec 3) : (s.withCursor c).refused = s.refused := rfl
@[simp] theorem State.withCursor_config (c : BitVec 3) : (s.withCursor c).config = s.config := rfl
@[simp] theorem State.withCursor_pending (c : BitVec 3) : (s.withCursor c).pending = s.pending := rfl
@[simp] theorem State.withCursor_index (c : BitVec 3) : (s.withCursor c).index = s.index := rfl
@[simp] theorem State.withCursor_reply (c : BitVec 3) : (s.withCursor c).reply = s.reply := rfl

@[simp] theorem State.takeFault_slot (r : Fault) : (s.takeFault r).slot = s.slot := rfl
@[simp] theorem State.takeFault_cursor (r : Fault) : (s.takeFault r).cursor = s.cursor := rfl
@[simp] theorem State.takeFault_fault (r : Fault) : (s.takeFault r).fault = s.fault ++ [r] := rfl
@[simp] theorem State.takeFault_refused (r : Fault) : (s.takeFault r).refused = s.refused := rfl
@[simp] theorem State.takeFault_config (r : Fault) : (s.takeFault r).config = s.config := rfl
@[simp] theorem State.takeFault_pending (r : Fault) : (s.takeFault r).pending = s.pending := rfl
@[simp] theorem State.takeFault_index (r : Fault) : (s.takeFault r).index = s.index := rfl
@[simp] theorem State.takeFault_reply (r : Fault) : (s.takeFault r).reply = .faulted r := rfl

@[simp] theorem State.takeRefusal_slot (r : RefusalReason) : (s.takeRefusal r).slot = s.slot := rfl
@[simp] theorem State.takeRefusal_cursor (r : RefusalReason) : (s.takeRefusal r).cursor = s.cursor := rfl
@[simp] theorem State.takeRefusal_fault (r : RefusalReason) : (s.takeRefusal r).fault = s.fault := rfl
@[simp] theorem State.takeRefusal_refused (r : RefusalReason) : (s.takeRefusal r).refused = true := rfl
@[simp] theorem State.takeRefusal_config (r : RefusalReason) : (s.takeRefusal r).config = s.config := rfl
@[simp] theorem State.takeRefusal_pending (r : RefusalReason) : (s.takeRefusal r).pending = s.pending := rfl
@[simp] theorem State.takeRefusal_index (r : RefusalReason) : (s.takeRefusal r).index = s.index := rfl
@[simp] theorem State.takeRefusal_reply (r : RefusalReason) : (s.takeRefusal r).reply = .refused r := rfl

@[simp] theorem State.taken_slot : (s.taken).slot = s.slot := rfl
@[simp] theorem State.taken_cursor : (s.taken).cursor = s.cursor := rfl
@[simp] theorem State.taken_fault : (s.taken).fault = s.fault := rfl
@[simp] theorem State.taken_refused : (s.taken).refused = s.refused := rfl
@[simp] theorem State.taken_config : (s.taken).config = s.config := rfl
@[simp] theorem State.taken_pending : (s.taken).pending = s.pending.tail := rfl
@[simp] theorem State.taken_index : (s.taken).index = s.index + 1 := rfl
@[simp] theorem State.taken_reply : (s.taken).reply = s.reply := rfl

@[simp] theorem State.present_slot (t : Transaction) : (s.present t).slot = s.slot := rfl
@[simp] theorem State.present_cursor (t : Transaction) : (s.present t).cursor = s.cursor := rfl
@[simp] theorem State.present_fault (t : Transaction) : (s.present t).fault = s.fault := rfl
@[simp] theorem State.present_refused (t : Transaction) : (s.present t).refused = s.refused := rfl
@[simp] theorem State.present_config (t : Transaction) : (s.present t).config = s.config := rfl
@[simp] theorem State.present_pending (t : Transaction) : (s.present t).pending = t :: s.pending.tail := rfl
@[simp] theorem State.present_index (t : Transaction) : (s.present t).index = s.index := rfl
@[simp] theorem State.present_reply (t : Transaction) : (s.present t).reply = s.reply := rfl

end Sys2Proof.Machine
end

