-- ==== Sys2Proof/Laws/Ops.lean ====
section
/-!
SUPPORT. What the shared operations do, once each: the buffer primitives (R64, R65), the patterns of R66
and R92, the packing of R48, the cursor's advance (R72), and the cases of a step.
-/
namespace Sys2Proof.Machine

@[simp] theorem writeRaw_zero (m : WideMask) (b : Buffer) :
    writeRaw 0 m b = { b with slot0 := .written (m.setWidth 8) } := rfl

@[simp] theorem writeRaw_one (m : WideMask) (b : Buffer) :
    writeRaw 1 m b = { b with slot1 := .written (m.setWidth 8) } := rfl

@[simp] theorem writeRaw_two (m : WideMask) (b : Buffer) :
    writeRaw 2 m b = { b with slot2 := .written m } := rfl

@[simp] theorem writeRaw_three (m : WideMask) (b : Buffer) :
    writeRaw 3 m b = { b with slot3 := .written (m.setWidth 8) } := rfl

@[simp] theorem writeRaw_four (m : WideMask) (b : Buffer) :
    writeRaw 4 m b = { b with slot4 := .written (m.setWidth 8) } := rfl

/-- A write to an unbacked position is dropped (R34, R64). -/
theorem writeRaw_unbacked {p : Int} (h : p < 0 ∨ 4 < p) (m : WideMask) (b : Buffer) :
    writeRaw p m b = b := by
  have h2 : p ≠ 2 := by omega
  have h0 : p ≠ 0 := by omega
  have h1 : p ≠ 1 := by omega
  have h3 : p ≠ 3 := by omega
  have h4 : p ≠ 4 := by omega
  simp [writeRaw, h0, h1, h2, h3, h4]

/-- A write to any other position leaves slot 2 (R64). -/
theorem writeRaw_slot2_of_ne {p : Int} (h : p ≠ 2) (m : WideMask) (b : Buffer) :
    (writeRaw p m b).slot2 = b.slot2 := by
  unfold writeRaw
  simp only [h, if_false]
  split_ifs <;> rfl

/-- The low eight bits of a zero-extended glyph are the glyph (R65). -/
@[simp] theorem setWidth_glyph (c : Config) (d : BitVec 4) (dp : Bool) :
    ((glyph c d dp).setWidth 16).setWidth 8 = glyph c d dp :=
  BitVec.setWidth_setWidth_of_le _ (by decide)

/-- CLEAR's buffer (R66). -/
theorem clearSlots_eq (b : Buffer) :
    clearSlots b = ⟨.written 0, .written 0, .written 0, .written 0, .written 0⟩ := rfl

/-- The error pattern does not depend on the buffer before it (R92). -/
theorem showError_eq (b : Buffer) :
    showError b = ⟨.written 0x40, .written 0x40, .written 0, .written 0x40, .written 0x40⟩ := rfl

/-- The packing exists exactly when every slot is written (R70). -/
theorem packSlots_isSome_iff (b : Buffer) : (packSlots b).isSome ↔ b.AllWritten := by
  obtain ⟨s0, s1, s2, s3, s4⟩ := b
  cases s0 <;> cases s1 <;> cases s2 <;> cases s3 <;> cases s4 <;>
    simp [packSlots, Buffer.AllWritten]

/-- The cursor advances to a legal value from every value (R18, R72). -/
theorem advanceCursor_legal (c : BitVec 3) : (Reg.written (advanceCursor c)).CursorLegal := by
  revert c; decide

/-- What a step that answers a next state has done: waited (R121), refused a word (R106), or performed a
command. -/
theorem step_cases {s t : State} (h : step s = .next t) :
    s.Unmarked ∧
      ((s.pending = [] ∧ t = s) ∨
        ∃ tr rest, s.pending = tr :: rest ∧
          ((∃ r, decode tr.cmd tr.data = .error r ∧ t = s.taken.takeRefusal r) ∨
            ∃ i, decode tr.cmd tr.data = .ok i ∧ exec i s.taken = .next t)) := by
  unfold step at h
  cases hr : s.refused with
  | true => simp [State.stop?, hr] at h
  | false =>
    cases hf : s.fault with
    | cons r rs => simp [State.stop?, hr, hf] at h
    | nil =>
      refine ⟨⟨hr, hf⟩, ?_⟩
      cases hp : s.pending with
      | nil =>
        simp [State.stop?, hr, hf, State.presented, hp] at h
        exact .inl ⟨rfl, h.symm⟩
      | cons tr rest =>
        refine .inr ⟨tr, rest, rfl, ?_⟩
        cases hd : decode tr.cmd tr.data with
        | error r =>
          simp [State.stop?, hr, hf, State.presented, hp, Transaction.decoded, hd] at h
          exact .inl ⟨r, rfl, h.symm⟩
        | ok i =>
          simp [State.stop?, hr, hf, State.presented, hp, Transaction.decoded, hd] at h
          exact .inr ⟨i, rfl, h⟩

end Sys2Proof.Machine
end

