-- ==== Sys2Proof/Laws/PerInstr.lean ====
section
/-!
SUPPORT. Families of statements about every instruction as syntax. `EncodesOpcode`: the encoder puts the
opcode of R49 into `cmd[3:0]` and 0 into `cmd[7:4]` (R42, 30_encoding.md).
-/

/-- The opcode of each command (R49). -/
def Sys2Proof.Laws.opcode : Sys2Proof.Instr → BitVec 4
  | .clear => 0x0
  | .wraw _ _ => 0x1
  | .wdig _ _ _ => 0x2
  | .wsep _ => 0x3
  | .fmt _ _ _ => 0x4
  | .fmti _ _ _ => 0x5
  | .wchr _ => 0x6
  | .rcur => 0x7
  | .rdbuf => 0x8

namespace Sys2Proof.Laws.EncodesOpcode

/-- R42 and R49 of the encoder: the opcode in `cmd[3:0]`, 0 in `cmd[7:4]`. -/
def Statement (i : Instr) : Prop :=
  (encodeCmd i).extractLsb' 0 4 = Laws.opcode i ∧ (encodeCmd i).extractLsb' 4 4 = 0

/-- The two low fields of a word that ends in `0000` and an opcode. -/
theorem lowFields {w : Nat} (hi : BitVec w) (op : BitVec 4) :
    (hi ++ (0#4 : BitVec 4) ++ op).extractLsb' 0 4 = op ∧
      (hi ++ (0#4 : BitVec 4) ++ op).extractLsb' 4 4 = 0 := by
  constructor <;> ext j hj <;> simp [BitVec.getLsbD_append, hj]

theorem clear : Statement .clear := by constructor <;> decide
theorem wraw (pos : BitVec 8) (mask : WideMask) : Statement (.wraw pos mask) := lowFields (mask ++ pos) 0x1
theorem wdig (pos : BitVec 8) (digit : BitVec 4) (dp : Bool) : Statement (.wdig pos digit dp) :=
  lowFields (0#11 ++ bit dp ++ digit ++ pos) 0x2
theorem wsep (on : Bool) : Statement (.wsep on) := lowFields (0#23 ++ bit on) 0x3
theorem fmt (value : DataWord) (fd base : BitVec 8) : Statement (.fmt value fd base) :=
  lowFields (0#8 ++ base ++ fd) 0x4
theorem fmti (value : DataWord) (fd base : BitVec 8) : Statement (.fmti value fd base) :=
  lowFields (0#8 ++ base ++ fd) 0x5
theorem wchr (c : BitVec 8) : Statement (.wchr c) := lowFields (0#16 ++ c) 0x6
theorem rcur : Statement .rcur := by constructor <;> decide
theorem rdbuf : Statement .rdbuf := by constructor <;> decide

end Sys2Proof.Laws.EncodesOpcode
end

