-- ==== Sys2Proof/Tests/Slice0.lean ====
section
/-!
SUPPORT. The model's own tests: ill-formed terms, words written out from the spec's encodings, one step of
each command on the spec's own vectors (95_test_vectors.md), and a witness for the hypotheses of each
statement.
-/
namespace Sys2Proof.Tests

open Sys2Proof Sys2Proof.Machine

/-! ### Well-formedness: a base outside 2..16 is refused (R52; vectors V-E11, V-E12, V-E13, V-E14) -/

theorem test_fmti_base_zero_ill_formed : (Instr.fmti 5 0 0).wellFormed = false := by decide
theorem test_fmti_base_one_ill_formed : (Instr.fmti 5 0 1).wellFormed = false := by decide
theorem test_fmti_base_seventeen_ill_formed : (Instr.fmti 5 0 17).wellFormed = false := by decide
theorem test_fmt_base_255_ill_formed : (Instr.fmt 0x4014000000000000 0 255).wellFormed = false := by
  decide
theorem test_base_bounds_well_formed :
    (Instr.fmti 5 0 2).wellFormed = true ∧ (Instr.fmt 5 0 16).wellFormed = true := by decide

/-! ### Decoding: words written out field by field from R43 and R66 to R94 -/

theorem test_decode_clear : decode 0b00000000000000000000000000000000 0 = .ok .clear := by decide
theorem test_decode_wraw : decode 0b0001001000110100_00000010_0000_0001 0 = .ok (.wraw 2 0x1234) := by
  decide
theorem test_decode_wdig : decode 0b00000000000_1_0101_00000100_0000_0010 0 = .ok (.wdig 4 5 true) := by
  decide
theorem test_decode_wsep : decode 0b00000000000000000000000_1_0000_0011 0 = .ok (.wsep true) := by decide
theorem test_decode_fmt :
    decode 0b00000000_00001010_00000001_0000_0100 0x3FF8000000000000 =
      .ok (.fmt 0x3FF8000000000000 1 10) := by decide
theorem test_decode_fmti :
    decode 0b00000000_00001010_00000011_0000_0101 0xFFFFFFFFFFFFFFFB =
      .ok (.fmti 0xFFFFFFFFFFFFFFFB 3 10) := by decide
theorem test_decode_wchr : decode 0b0000000000000000_00110111_0000_0110 0 = .ok (.wchr 0x37) := by decide
theorem test_decode_rcur : decode 0b00000000000000000000000000000111 0 = .ok .rcur := by decide
theorem test_decode_rdbuf : decode 0b00000000000000000000000000001000 0 = .ok .rdbuf := by decide

/-- V-E1, V-E3: a reserved opcode, with reserved bits set too. -/
theorem test_decode_reserved_opcode :
    decode 0x00000009 0 = .error .reservedOpcode ∧ decode 0x000000F9 0 = .error .reservedOpcode := by decide
/-- V-E4, V-E6 to V-E10, V-E17: one reserved bit of each format. -/
theorem test_decode_reserved_field :
    decode 0x00000010 0 = .error .reservedField ∧ decode 0x80000007 0 = .error .reservedField ∧
      decode 0x00000108 0 = .error .reservedField ∧ decode 0x00200002 0 = .error .reservedField ∧
      decode 0x00000203 0 = .error .reservedField ∧ decode 0x00013006 0 = .error .reservedField ∧
      decode 0x00020015 5 = .error .reservedField := by decide
/-- V-E13, V-E15, V-E16: the base is checked after the reserved field and before the value. -/
theorem test_decode_bad_base :
    decode 0x00110005 5 = .error .badBase ∧ decode 0x01000004 0 = .error .reservedField ∧
      decode 0x00010004 0x7FF0000000000000 = .error .badBase := by decide
/-- The opcode table's numbering, the data word zero (V-E18). -/
theorem test_decodeTableWord : decodeTableWord 32 0xFFFF0001 = some (.wraw 0 0xFFFF) := by decide

/-! ### One step of each command (vectors of 95_test_vectors.md) -/

/-- The state after CLEAR; RCUR (the vectors' start state `boot`). -/
def boot : State :=
  { State.reset with slot := clearSlots Buffer.unwritten, cursor := .written 0, reply := .word 0 }

/-- `boot+F1234` of the vectors. -/
def boot1234 : State :=
  { boot with slot := ⟨.written 0x06, .written 0x5B, .written 0, .written 0x4F, .written 0x66⟩ }

/-- Slots, cursor and answer after one step on the given words. -/
def after (s : State) (cmd : CmdWord) (data : DataWord) : Option (Buffer × Reg 3 × Reply) :=
  match step (s.present ⟨cmd, data⟩) with
  | .next t => some (t.slot, t.cursor, t.reply)
  | .fault _ => none
  | .refused _ => none

/-- V-B11. -/
theorem test_clear : after boot1234 0x00000000 0 =
    some (⟨.written 0, .written 0, .written 0, .written 0, .written 0⟩, .written 0, .word 0) := by decide
/-- V-B1. -/
theorem test_wraw_separator : after boot 0x12340201 0 =
    some (⟨.written 0, .written 0, .written 0x1234, .written 0, .written 0⟩, .written 0, .word 0) := by
  decide
/-- V-B3. -/
theorem test_wraw_narrow : after boot 0xFFFF0001 0 =
    some (⟨.written 0xFF, .written 0, .written 0, .written 0, .written 0⟩, .written 0, .word 0) := by decide
/-- V-B6. -/
theorem test_wdig_point : after boot 0x00150402 0 =
    some (⟨.written 0, .written 0, .written 0, .written 0, .written 0xED⟩, .written 0, .word 0) := by decide
/-- V-B7. -/
theorem test_wdig_separator : after boot 0x00180202 0 =
    some (⟨.written 0, .written 0, .written 0x00FF, .written 0, .written 0⟩, .written 0, .word 0) := by
  decide
/-- V-B9. -/
theorem test_wsep : after boot 0x00000103 0 =
    some (⟨.written 0, .written 0, .written 2, .written 0, .written 0⟩, .written 0, .word 0) := by decide
/-- V-F4: 12.345 with fd 2 shows 12.35 (conflict C2). -/
theorem test_fmt_no_reduction : (after boot 0x000A0204 0x4028B0A3D70A3D71).map (·.1) =
    some ⟨.written 0x06, .written 0xDB, .written 0, .written 0x4F, .written 0x6D⟩ := by decide +kernel
/-- V-F29: the rounding of `scale` in BINARY64 decides the outcome (R84). -/
theorem test_fmt_scale_below_one : (after boot 0x00071404 0x408F400000000000).map (·.1) =
    some ⟨.written 0x40, .written 0x40, .written 0, .written 0x40, .written 0x40⟩ := by decide +kernel
/-- V-F20. -/
theorem test_fmti_sign : (after boot 0x000A0005 0xFFFFFFFFFFFFFF85).map (·.1) =
    some ⟨.written 0x40, .written 0x06, .written 0, .written 0x5B, .written 0x4F⟩ := by decide +kernel
/-- V-F78: one reduction, and the point. -/
theorem test_fmti_reduction : (after boot 0x000A0305 42).map (·.1) =
    some ⟨.written 0x66, .written 0xDB, .written 0, .written 0x3F, .written 0x3F⟩ := by decide +kernel
/-- V-S6. -/
theorem test_wchr_digit : after boot 0x00003106 0 =
    some (⟨.written 0x06, .written 0, .written 0, .written 0, .written 0⟩, .written 1, .word 1) := by decide
/-- V-S4. -/
theorem test_wchr_unwritten_cursor : after State.reset 0x00004106 0 =
    some (Buffer.unwritten, .unwritten, .faulted .readUnwrittenCursor) := by decide
/-- V-S5. -/
theorem test_rcur : after State.reset 0x00000007 0 =
    some (Buffer.unwritten, .written 0, .word 0) := by decide
/-- V-B13. -/
theorem test_rdbuf : (after boot1234 0x00000008 0).map (·.2.2) = some (.word 0x0000664F00005B06) := by
  decide
/-- V-B14. -/
theorem test_rdbuf_unwritten : after State.reset 0x00000008 0 =
    some (Buffer.unwritten, .unwritten, .faulted .readUnwrittenSlot) := by decide
/-- P7: a refused base leaves slots and cursor. -/
theorem test_refused_base : after boot 0x00110005 5 =
    some (boot.slot, .written 0, .refused .badBase) := by decide

/-- V-F26: BINARY64 and EXACT differ one ulp below a half (R81). -/
theorem test_domains_differ :
    (fmtBuffer configStd 0x3FDFFFFFFFFFFFFF 0 10 Buffer.unwritten).slot4 = .written 0x06 ∧
      (fmtBuffer { configStd with num := .exact } 0x3FDFFFFFFFFFFFFF 0 10 Buffer.unwritten).slot4 =
        .written 0x3F := by decide +kernel
/-- R81: `nadd(0.49999999999999994, 0.5) = 1.0` in binary64. -/
theorem test_add_rounds_up :
    F64.add (F64.ofBits 0x3FDFFFFFFFFFFFFF) F64.half = F64.ofBits 0x3FF0000000000000 := by decide +kernel
/-- P2 step 3 and V-F4 in assembler text (R54, R55). -/
theorem test_assemble :
    assembleProgram ["PRINT 1234, 10".toList, "FMT 12.345, 2, 10 ; V-F4".toList] =
      some [⟨0x000A0005, 0x4D2⟩, ⟨0x000A0204, 0x4028B0A3D70A3D71⟩] := by decide +kernel

/-! ### Witnesses: each statement's hypotheses are met -/

/-- A transaction of CLEAR at the head of the host's sequence. -/
def oneClear : State := { State.reset with pending := [⟨0, 0⟩] }
/-- A reserved word at the head of the host's sequence. -/
def oneReserved : State := { State.reset with pending := [⟨9, 0⟩] }
/-- A state that carries the refused mark. -/
def marked : State := { State.reset with refused := true }

theorem witness_StepRunsDecodedCommand :
    oneClear.Unmarked ∧ oneClear.pending = (⟨0, 0⟩ : Transaction) :: [] ∧ decode 0 0 = .ok .clear := by
  decide
theorem witness_StepRefusesUndecodableWord :
    oneReserved.Unmarked ∧ oneReserved.pending = (⟨9, 0⟩ : Transaction) :: [] ∧
      decode 9 0 = .error .reservedOpcode := by decide
theorem witness_StepWaitsForCommand : State.reset.Unmarked ∧ State.reset.pending = [] := by decide
theorem witness_MarkedStateHasNoNext :
    ¬ marked.Unmarked ∧ ¬ { State.reset with fault := [.readUnwrittenSlot] }.Unmarked := by decide
theorem witness_DecodeOfEncode :
    (Instr.fmt 0 0 2).wellFormed = true ∧ (Instr.fmti 0 255 16).wellFormed = true ∧
      (Instr.wdig 255 15 true).wellFormed = true := by decide
theorem witness_EncodeOfDecode :
    decode 0x00100005 5 = .ok (.fmti 5 0 16) ∧ (0x00100005 : CmdWord).extractLsb' 0 4 = 5#4 ∧
      decode 0x00020004 5 = .ok (.fmt 5 0 2) ∧ (0x00020004 : CmdWord).extractLsb' 0 4 = 4#4 := by decide
theorem witness_RefusalReasonsInOrder_reserved_opcode :
    9 ≤ ((0x00000009 : CmdWord).extractLsb' 0 4).toNat := by decide
theorem witness_RefusalReasonsInOrder_reserved_field :
    ((0x00000018 : CmdWord).extractLsb' 0 4).toNat < 9 ∧ (0x00000018 : CmdWord) &&& reservedBits 8 ≠ 0 := by
  decide
theorem witness_RefusalReasonsInOrder_bad_base :
    ((0x00110005 : CmdWord).extractLsb' 0 4).toNat < 9 ∧ (0x00110005 : CmdWord) &&& reservedBits 5 = 0 ∧
      ¬ (2 ≤ ((0x00110005 : CmdWord).extractLsb' 16 8).toNat ∧
        ((0x00110005 : CmdWord).extractLsb' 16 8).toNat ≤ 16) := by decide
theorem witness_RefusalReasonsInOrder_accepted :
    ((0x00100005 : CmdWord).extractLsb' 0 4).toNat < 9 ∧ (0x00100005 : CmdWord) &&& reservedBits 5 = 0 ∧
      2 ≤ ((0x00100005 : CmdWord).extractLsb' 16 8).toNat ∧
      ((0x00100005 : CmdWord).extractLsb' 16 8).toNat ≤ 16 := by decide
theorem witness_DataWordIgnored :
    (0x00000108 : CmdWord).extractLsb' 0 4 ≠ 4#4 ∧ (0x00000108 : CmdWord).extractLsb' 0 4 ≠ 5#4 := by decide
/-- The clauses of WRAW and WDIG at the positions where they meet, 4 and 5. -/
theorem witness_WrawStoresAtItsPosition :
    exec (.wraw 4 0x1234) boot = .next { boot with slot := { boot.slot with slot4 := .written 0x34 } } ∧
      exec (.wraw 5 0x1234) boot = .next boot := ⟨rfl, rfl⟩
theorem witness_WdigStoresGlyph :
    exec (.wdig 4 5 true) boot = .next { boot with slot := { boot.slot with slot4 := .written 0xED } } ∧
      exec (.wdig 5 5 true) boot = .next boot := ⟨rfl, rfl⟩
theorem witness_RdbufReturnsSlotsOrFaults :
    boot1234.slot = ⟨.written 0x06, .written 0x5B, .written 0, .written 0x4F, .written 0x66⟩ ∧
      ¬ State.reset.slot.AllWritten ∧ ¬ { boot.slot with slot2 := .unwritten }.AllWritten := by decide
theorem witness_WchrFollowsItsTransition_line_end : (0x0A : BitVec 8) = 0x0A ∧ (0x0D : BitVec 8) = 0x0D := by decide
theorem witness_WchrFollowsItsTransition_digit :
    (0x30 : BitVec 8) = 0x3#4 ++ (0x0 : BitVec 4) ∧ (0x39 : BitVec 8) = 0x3#4 ++ (0x9 : BitVec 4) ∧
      (0x9 : BitVec 4).toNat ≤ 9 ∧ boot.cursor = .written 0 ∧
      { boot with cursor := .written 1 }.cursor = .written 1 ∧
      { boot with cursor := .written 3 }.cursor = .written 3 ∧
      { boot with cursor := .written 4 }.cursor = .written 4 ∧
      { boot with cursor := .written 5 }.cursor = .written 5 := by decide
theorem witness_WchrFollowsItsTransition_other :
    ((0x2F : BitVec 8) ≠ 0x0A ∧ (0x2F : BitVec 8) ≠ 0x0D ∧ (0x2F : BitVec 8).toNat < 0x30) ∧
      ((0x3A : BitVec 8) ≠ 0x0A ∧ (0x3A : BitVec 8) ≠ 0x0D ∧ 0x39 < (0x3A : BitVec 8).toNat) ∧
      boot.cursor = .written 0 ∧ { boot with cursor := .written 1 }.cursor = .written 1 ∧
      { boot with cursor := .written 3 }.cursor = .written 3 ∧
      { boot with cursor := .written 4 }.cursor = .written 4 ∧
      { boot with cursor := .written 5 }.cursor = .written 5 := by decide
theorem witness_WchrFollowsItsTransition_unwritten_cursor :
    (0x35 : BitVec 8) ≠ 0x0A ∧ (0x35 : BitVec 8) ≠ 0x0D ∧ State.reset.cursor = .unwritten := by decide
theorem witness_FourDigitsFillTheNumericSlots :
    ∃ s1 s2 s3 s4, boot.cursor = .written 0 ∧ (0x9 : BitVec 4).toNat ≤ 9 ∧
      exec (.wchr (0x3#4 ++ 0x1#4)) boot = .next s1 ∧ exec (.wchr (0x3#4 ++ 0x2#4)) s1 = .next s2 ∧
      exec (.wchr (0x3#4 ++ 0x3#4)) s2 = .next s3 ∧ exec (.wchr (0x3#4 ++ 0x9#4)) s3 = .next s4 :=
  ⟨_, _, _, _, rfl, by decide, rfl, rfl, rfl, rfl⟩
theorem witness_FourDigitsFillTheNumericSlots_cursor :
    (0x2D : BitVec 8) ≠ 0x0A ∧ (0x2D : BitVec 8) ≠ 0x0D ∧
      ∃ t, exec (.wchr 0x2D) { boot with cursor := .written 5 } = .next t ∧ t.cursor = .written 5 :=
  ⟨by decide, by decide, _, rfl, rfl⟩
theorem witness_WriteRawStoresOrDrops : (-1 : Int) < 0 ∧ (4 : Int) < 5 := by decide
theorem witness_StreamNeverWritesSeparator :
    boot.cursor.CursorLegal ∧ ∃ t, exec (.wchr 0x31) boot = .next t := ⟨by decide, _, rfl⟩
theorem witness_FormatWritesEverySlot :
    2 ≤ (2 : BitVec 8).toNat ∧ (2 : BitVec 8).toNat ≤ 16 ∧ 2 ≤ (16 : BitVec 8).toNat ∧
      (16 : BitVec 8).toNat ≤ 16 := by decide
theorem witness_FormatIgnoresPriorBuffer :
    boot.config.font = State.reset.config.font ∧ boot.config.num = State.reset.config.num ∧
      (∃ t, exec (.fmt 0 0 2) boot = .next t) ∧ (∃ t, exec (.fmt 0 0 2) State.reset = .next t) ∧
      (∃ t, exec (.fmti 0 0 16) boot = .next t) ∧ ∃ t, exec (.fmti 0 0 16) State.reset = .next t :=
  ⟨rfl, rfl, ⟨_, rfl⟩, ⟨_, rfl⟩, ⟨_, rfl⟩, ⟨_, rfl⟩⟩
theorem witness_FormatRefusesBadBase :
    ¬ (2 ≤ (1 : BitVec 8).toNat ∧ (1 : BitVec 8).toNat ≤ 16) ∧
      ¬ (2 ≤ (17 : BitVec 8).toNat ∧ (17 : BitVec 8).toNat ≤ 16) := by decide
theorem witness_NonFiniteShowsErrorPattern :
    (0x7FF0000000000000 : DataWord).extractLsb' 52 11 = 2047#11 ∧
      (0xFFF0000000000000 : DataWord).extractLsb' 52 11 = 2047#11 ∧
      (0x7FF8000000000000 : DataWord).extractLsb' 52 11 = 2047#11 ∧ 2 ≤ (10 : BitVec 8).toNat ∧
      (10 : BitVec 8).toNat ≤ 16 := by decide
theorem witness_ZeroShowsSingleDigit :
    ((0 : DataWord) = 0x0000000000000000 ∨ (0 : DataWord) = 0x8000000000000000) ∧
      ((0x8000000000000000 : DataWord) = 0x0000000000000000 ∨
        (0x8000000000000000 : DataWord) = 0x8000000000000000) ∧ 2 ≤ (16 : BitVec 8).toNat ∧
      (16 : BitVec 8).toNat ≤ 16 := by decide
theorem witness_RenderLaysOutNumeral :
    2 ≤ 2 ∧ 16 ≤ 16 ∧ 65535 < 65536 ∧ (255 : Int) ≤ 255 := by decide
theorem witness_IntegerShowsItsNumeral :
    2 ≤ (10 : BitVec 8).toNat ∧ (10 : BitVec 8).toNat ≤ 16 ∧ 0 ≤ (9999 : DataWord).toInt ∧
      (9999 : DataWord).toInt < ((10 : BitVec 8).toNat : Int) ^ 4 := by decide
theorem witness_NegativeIntegerShowsSign :
    2 ≤ (10 : BitVec 8).toNat ∧ (10 : BitVec 8).toNat ≤ 16 ∧ (-999 : DataWord).toInt < 0 ∧
      -(((10 : BitVec 8).toNat : Int) ^ 3) < (-999 : DataWord).toInt := by decide
theorem witness_UnrenderableIntegerShowsError :
    2 ≤ (10 : BitVec 8).toNat ∧ (10 : BitVec 8).toNat ≤ 16 ∧
      ((10 : BitVec 8).toNat : Int) ^ 4 ≤ (10000 : DataWord).toInt ∧
      (-1000 : DataWord).toInt ≤ -(((10 : BitVec 8).toNat : Int) ^ 3) := by decide
/-- The clauses at their boundaries, for FMT: 10000 does not fit at fd 0; 2.5 at fd 1 fits with k = fd; 1234.5
at fd 1 fits with k = 0 below fd, since 12345 does not fit; -99.5 at fd 2 fits with k = 1 below fd. -/
theorem witness_ExactFormatShowsRoundedValue :
    { boot with config := { configStd with num := .exact } }.config.num = .exact ∧
      2 ≤ (10 : BitVec 8).toNat ∧ (10 : BitVec 8).toNat ≤ 16 ∧
      ((F64.ofBits 0x40C3880000000000).toRat? = some 10000 ∧
        (10 : BitVec 8).toNat ^ 4 ≤ exactDisplay |10000| (10 : BitVec 8).toNat 0) ∧
      ((F64.ofBits 0x4004000000000000).toRat? = some (5 / 2) ∧ 1 ≤ (1 : BitVec 8).toNat ∧
        exactDisplay |5 / 2| (10 : BitVec 8).toNat 1 < (10 : BitVec 8).toNat ^ 4) ∧
      ((F64.ofBits 0x40934A0000000000).toRat? = some (2469 / 2) ∧ 0 < (1 : BitVec 8).toNat ∧
        exactDisplay |2469 / 2| (10 : BitVec 8).toNat 0 < (10 : BitVec 8).toNat ^ 4 ∧
        (10 : BitVec 8).toNat ^ 4 ≤ exactDisplay |2469 / 2| (10 : BitVec 8).toNat (0 + 1)) ∧
      (F64.ofBits 0xC058E00000000000).toRat? = some (-199 / 2) ∧ 1 < (2 : BitVec 8).toNat ∧
        exactDisplay |-199 / 2| (10 : BitVec 8).toNat 1 < (10 : BitVec 8).toNat ^ 3 ∧
        (10 : BitVec 8).toNat ^ 3 ≤ exactDisplay |-199 / 2| (10 : BitVec 8).toNat (1 + 1) := by
  decide +kernel
/-- The same for FMTI: 100 at fd 1 fits with k = fd (V-F62), 42 at fd 3 with k = 2 (V-F78), -5 at fd 3 with
k = 2, and 10000 not at all. -/
theorem witness_ExactFormatShowsRoundedValue_fmti :
    (100 : Rat) = ((100 : DataWord).toInt : Rat) ∧ (42 : Rat) = ((42 : DataWord).toInt : Rat) ∧
      (-5 : Rat) = ((0xFFFFFFFFFFFFFFFB : DataWord).toInt : Rat) ∧
      (10000 : Rat) = ((10000 : DataWord).toInt : Rat) ∧
      exactDisplay |100| (10 : BitVec 8).toNat 1 < (10 : BitVec 8).toNat ^ 4 ∧
      exactDisplay |42| (10 : BitVec 8).toNat 2 < (10 : BitVec 8).toNat ^ 4 ∧
      (10 : BitVec 8).toNat ^ 4 ≤ exactDisplay |42| (10 : BitVec 8).toNat (2 + 1) ∧
      exactDisplay |-5| (10 : BitVec 8).toNat 2 < (10 : BitVec 8).toNat ^ 3 ∧
      (10 : BitVec 8).toNat ^ 3 ≤ exactDisplay |-5| (10 : BitVec 8).toNat (2 + 1) ∧
      (10 : BitVec 8).toNat ^ 4 ≤ exactDisplay |10000| (10 : BitVec 8).toNat 0 := by decide +kernel
theorem witness_AtMostOneDecimalPoint :
    boot.config.FontOk ∧ 2 ≤ (10 : BitVec 8).toNat ∧ (10 : BitVec 8).toNat ≤ 16 ∧
      (∃ t, exec (.fmt 0 0 10) boot = .next t) ∧ ∃ t, exec (.fmti 0 0 10) boot = .next t :=
  ⟨by decide, by decide, by decide, ⟨_, rfl⟩, ⟨_, rfl⟩⟩
theorem witness_ReductionEndsWithinBound :
    2 ≤ 2 ∧ 16 ≤ 16 ∧ (∃ x, binary64Ops.ofBits 0x7FEFFFFFFFFFFFFF = some x) ∧
      ∃ x, exactOps.ofBits 0x7FEFFFFFFFFFFFFF = some x :=
  ⟨by decide, by decide, ⟨F64.ofBits 0x7FEFFFFFFFFFFFFF, by decide⟩, Option.isSome_iff_exists.mp (by decide +kernel)⟩
/-- Both clauses: 1000 at fd 20 in base 7 leaves scale below 1 (V-F29), at fd 19 it does not (V-F30). -/
theorem witness_BinaryFormatShowsReducedNumeral :
    boot.config.num = .binary64 ∧ 2 ≤ (7 : BitVec 8).toNat ∧ (7 : BitVec 8).toNat ≤ 16 ∧
      binary64Ops.ofBits 0x408F400000000000 = some (F64.fin false (1000 * oneUnits)) ∧
      binary64Ops.lt (reduced binary64Ops (.fin false (1000 * oneUnits)) 20 7 2401).scale
        (binary64Ops.ofInt 1) = true ∧
      binary64Ops.lt (reduced binary64Ops (.fin false (1000 * oneUnits)) 19 7 2401).scale
        (binary64Ops.ofInt 1) = false := by decide +kernel
/-- Both clauses for FMTI: 42 at fd 3 leaves fd 2 (V-F78), 10000 at fd 1 leaves scale below 1. -/
theorem witness_BinaryFormatShowsReducedNumeral_fmti :
    F64.fin false (42 * oneUnits) = binary64Ops.ofInt (42 : DataWord).toInt ∧
      F64.fin false (10000 * oneUnits) = binary64Ops.ofInt (10000 : DataWord).toInt ∧
      (reduced binary64Ops (.fin false (42 * oneUnits)) 3 10 10000).fd = 2 ∧
      binary64Ops.lt (reduced binary64Ops (.fin false (42 * oneUnits)) 3 10 10000).scale
        (binary64Ops.ofInt 1) = false ∧
      binary64Ops.lt (reduced binary64Ops (.fin false (10000 * oneUnits)) 1 10 10000).scale
        (binary64Ops.ofInt 1) = true := by decide +kernel
theorem witness_DigitLoopEndsWithinBound : 2 ≤ 2 ∧ 65535 < 65536 ∧ (255 : Int) ≤ 255 := by decide
theorem witness_GuardedReductionSameBuffer :
    2 ≤ 7 ∧ 7 ≤ 16 ∧ (∃ x, binary64Ops.ofBits 0x408F400000000000 = some x) ∧
      ∃ x, exactOps.ofBits 0x408F400000000000 = some x :=
  ⟨by decide, by decide, ⟨F64.ofBits 0x408F400000000000, by decide⟩, Option.isSome_iff_exists.mp (by decide +kernel)⟩
theorem witness_PatternHasItsBinary64Value :
    ((1 : DataWord).extractLsb' 52 11).toNat = 0 ∧
      0 < ((0x0010000000000000 : DataWord).extractLsb' 52 11).toNat ∧
      ((0x7FEFFFFFFFFFFFFF : DataWord).extractLsb' 52 11).toNat < 2047 ∧
      ((0x7FF0000000000000 : DataWord).extractLsb' 52 11).toNat = 2047 := by decide
theorem witness_PatternOfFiniteValue : nIsFinite 0x4028B0A3D70A3D71 = true := by decide
/-- Both clauses at the overflow boundary, with a representable number beside it. -/
theorem witness_RoundsToNearestEven :
    0 < 1 ∧ ((1 <<< 54) - 1) * (1 <<< 2044) * 1 ≤ ((1 <<< 54) - 1) * (1 <<< 2044) ∧
      ((1 <<< 54) - 1) * (1 <<< 2044) - 1 < ((1 <<< 54) - 1) * (1 <<< 2044) * 1 ∧ Representable 1 :=
  ⟨by decide, by decide +kernel, by decide +kernel, 1, 0, by norm_num, by norm_num, by norm_num⟩
theorem witness_ProductRoundedOnce :
    (F64.fin true oneUnits).toRat? = some (-1) ∧ F64.half.toRat? = some (1 / 2) ∧ (0 = 0 ∨ 1 = 0) := by
  decide +kernel
theorem witness_QuotientRoundedOnce : 0 < 7 ∧ (F64.fin true oneUnits).toRat? = some (-1) := by decide +kernel
/-- Both terms of a sum of 1/2, and of sums of zero with each sign. -/
theorem witness_SumRoundedOnce :
    F64.half.toRat? = some (1 / 2) ∧ (F64.fin true 0).toRat? = some 0 ∧ (0 : Rat) + 0 = 0 ∧
      (F64.fin true oneUnits).toRat? = some (-1) ∧ (F64.fin false oneUnits).toRat? = some 1 ∧
      (-1 : Rat) + 1 = 0 := by decide +kernel
/-- Each clause, nround at 0, at a half and at -0. -/
theorem witness_ComparisonNegationAndNround :
    (F64.fin true oneUnits).toRat? = some (-1) ∧ F64.half.toRat? = some (1 / 2) ∧
      (F64.fin true 0).toRat? = some 0 ∧ (0 : Rat) ≤ 0 ∧ (0 : Rat) ≤ 1 / 2 := by decide +kernel
theorem witness_StepKeepsLegal : oneClear.Legal ∧ ∃ t, step oneClear = .next t := ⟨by decide, _, rfl⟩
theorem witness_StepKeepsConfiguration : ∃ t, step oneClear = .next t := ⟨_, rfl⟩
theorem witness_MarksAreNeverCleared : marked.refused = true ∧ ∃ t, exec .clear marked = .next t :=
  ⟨by decide, _, rfl⟩
theorem witness_MarkingStepChangesNoSlotNoCursor : ∃ t, step oneReserved = .next t ∧ ¬ t.Unmarked :=
  ⟨_, rfl, by decide⟩
theorem witness_CommandsComplete :
    Instr.rdbuf.wellFormed = true ∧ boot.slot.AllWritten ∧ (Instr.wchr 0x31).wellFormed = true ∧
      boot.cursor ≠ .unwritten ∧ (Instr.fmt 0 0 2).wellFormed = true := by decide
theorem witness_CursorTouchedOnlyByStream :
    (∀ c, Instr.clear ≠ .wchr c) ∧ Instr.clear ≠ .rcur ∧ ∃ t, exec .clear boot = .next t :=
  ⟨fun _ h => (nomatch h), by decide, _, rfl⟩
theorem witness_CommandsIdempotent :
    Instr.rdbuf.wellFormed = true ∧ (∀ c, Instr.rdbuf ≠ .wchr c) ∧ boot.slot.AllWritten ∧
      ∃ t, exec .rdbuf boot = .next t := ⟨by decide, fun _ h => (nomatch h), by decide, _, rfl⟩
theorem witness_BootMakesEverythingReadable :
    ∃ t u, exec .clear State.reset = .next t ∧ exec .rcur t = .next u := ⟨_, _, rfl, rfl⟩
/-- From a readable state with a command presented, and from one whose slot 0 alone is written. -/
theorem witness_StepKeepsReadable :
    { boot with pending := [⟨8, 0⟩] }.Readable ∧ (∃ t, step { boot with pending := [⟨8, 0⟩] } = .next t) ∧
      { Buffer.unwritten with slot0 := .written 0x06 }.slot0 ≠ .unwritten ∧
      ∃ t, step { oneClear with slot := { Buffer.unwritten with slot0 := .written 0x06 } } = .next t :=
  ⟨by decide, ⟨_, rfl⟩, by decide, _, rfl⟩
theorem witness_ErrpatLeavesErrorPattern :
    ∃ s1 s2 s3 s4 s5, exec (.wraw 0 0x40) boot = .next s1 ∧ exec (.wraw 1 0x40) s1 = .next s2 ∧
      exec (.wraw 2 0) s2 = .next s3 ∧ exec (.wraw 3 0x40) s3 = .next s4 ∧
      exec (.wraw 4 0x40) s4 = .next s5 := ⟨_, _, _, _, _, rfl, rfl, rfl, rfl, rfl⟩

end Sys2Proof.Tests
end

section
/-!
PROOFS. What the commands that leave the cursor alone do, once each: the next state of CLEAR, WRAW, WDIG and
WSEP (R66 to R69), and the cases, guards included, of RDBUF (R70), FMT (R93) and FMTI (R94). R19 follows.
-/
namespace Sys2Proof.Machine

variable {s t : State}

theorem exec_clear (s : State) :
    exec .clear s = .next ((s.withSlot (clearSlots s.slot)).respond 0) := rfl

theorem exec_wraw (pos : BitVec 8) (mask : WideMask) (s : State) :
    exec (.wraw pos mask) s = .next ((s.withSlot (writeRaw pos.toNat mask s.slot)).respond 0) := rfl

theorem exec_wdig (pos : BitVec 8) (digit : BitVec 4) (dp : Bool) (s : State) :
    exec (.wdig pos digit dp) s =
      .next ((s.withSlot (writeDigit s.config pos.toNat digit dp s.slot)).respond 0) := rfl

theorem exec_wsep (on : Bool) (s : State) :
    exec (.wsep on) s =
      .next ((s.withSlot (writeRaw 2 (if on then s.config.sepOn else 0) s.slot)).respond 0) := rfl

/-- RDBUF answers the packed slots, or records its fault when there is no packing (R70). -/
theorem exec_rdbuf_cases (h : exec .rdbuf s = .next t) :
    (∃ rsp, packSlots s.slot = some rsp ∧ t = s.respond rsp) ∨
      (packSlots s.slot = none ∧ t = s.takeFault .readUnwrittenSlot) := by
  simp only [exec, execRdbuf] at h
  split at h <;> cases h
  · next rsp hpack => exact .inl ⟨rsp, hpack, rfl⟩
  · next hpack => exact .inr ⟨hpack, rfl⟩

/-- FMT writes its buffer under an admitted base, and records a refusal under any other (R93, log 12). -/
theorem exec_fmt_cases {value : DataWord} {fd base : BitVec 8}
    (h : exec (.fmt value fd base) s = .next t) :
    (baseAdmitted base ∧ t = (s.withSlot (fmtBuffer s.config value fd base s.slot)).respond 0) ∨
      (¬ baseAdmitted base ∧ t = s.takeRefusal .badBase) := by
  simp only [exec, execFmt] at h
  split at h <;> cases h
  · next hbase => exact .inl ⟨hbase, rfl⟩
  · next hbase => exact .inr ⟨hbase, rfl⟩

/-- FMTI writes its buffer under an admitted base, and records a refusal under any other (R94, log 12). -/
theorem exec_fmti_cases {value : DataWord} {fd base : BitVec 8}
    (h : exec (.fmti value fd base) s = .next t) :
    (baseAdmitted base ∧ t = (s.withSlot (fmtiBuffer s.config value fd base s.slot)).respond 0) ∨
      (¬ baseAdmitted base ∧ t = s.takeRefusal .badBase) := by
  simp only [exec, execFmti] at h
  split at h <;> cases h
  · next hbase => exact .inl ⟨hbase, rfl⟩
  · next hbase => exact .inr ⟨hbase, rfl⟩

end Sys2Proof.Machine
end

section
/-! PROOFS. The cursor belongs to the stream writer (R19, 10_state.md). -/
namespace Sys2Proof.Machine

/-- Settles O54: each command but WCHR and RCUR ends in updates of the slots, the response and the marks,
none of which reaches the cursor. -/
theorem cursorTouchedOnlyByStream : Obligations.CursorTouchedOnlyByStream := by
  intro i s t hwchr hrcur h
  cases i with
  | clear => rw [exec_clear] at h; cases h; simp
  | wraw pos mask => rw [exec_wraw] at h; cases h; simp
  | wdig pos digit dp => rw [exec_wdig] at h; cases h; simp
  | wsep on => rw [exec_wsep] at h; cases h; simp
  | fmt value fd base => obtain ⟨-, rfl⟩ | ⟨-, rfl⟩ := exec_fmt_cases h <;> simp
  | fmti value fd base => obtain ⟨-, rfl⟩ | ⟨-, rfl⟩ := exec_fmti_cases h <;> simp
  | wchr c => exact absurd rfl (hwchr c)
  | rcur => exact absurd rfl hrcur
  | rdbuf => obtain ⟨rsp, -, rfl⟩ | ⟨-, rfl⟩ := exec_rdbuf_cases h <;> simp

end Sys2Proof.Machine
end

section
/-!
PROOFS. The data word in the decoder and in the step (R45, R46, 30_encoding.md): only the commands of
opcodes 4 and 5 read it, and a step sees a transaction only through what it decodes to.
-/
namespace Sys2Proof

/-- Outside opcodes 4 and 5 no operand of the command comes from the data word (R46). -/
theorem assemble_data_irrelevant {cmd : CmdWord} (hfmt : opOf cmd ≠ 4#4) (hfmti : opOf cmd ≠ 5#4)
    (d1 d2 : DataWord) : assemble cmd d1 = assemble cmd d2 := by
  unfold assemble
  split
  case h_5 h4 => exact absurd (BitVec.eq_of_toNat_eq h4) hfmt
  case h_6 h5 => exact absurd (BitVec.eq_of_toNat_eq h5) hfmti
  all_goals rfl

/-- The decoder reads the data word only through the command it assembles (R53). -/
theorem decode_data_irrelevant {cmd : CmdWord} (hfmt : opOf cmd ≠ 4#4) (hfmti : opOf cmd ≠ 5#4)
    (d1 d2 : DataWord) : decode cmd d1 = decode cmd d2 := by
  simp only [decode, assemble_data_irrelevant hfmt hfmti d1 d2]

namespace Machine

/-- Two transactions that decode alike are one to the step that takes them (R35). -/
theorem step_congr_decoded {t1 t2 : Transaction} (h : t1.decoded = t2.decoded) (s : State)
    (rest : List Transaction) :
    step { s with pending := t1 :: rest } = step { s with pending := t2 :: rest } := by
  simp only [step, State.stop?, State.presented, State.taken, List.head?_cons, List.tail_cons, h]

/-- Settles O11: the word decodes alike with either data word, so the step answers alike. -/
theorem dataWordIgnored : Obligations.DataWordIgnored := by
  intro cmd d1 d2 hfmt hfmti
  have hdecode : decode cmd d1 = decode cmd d2 := decode_data_irrelevant hfmt hfmti d1 d2
  exact ⟨hdecode, step_congr_decoded (t1 := ⟨cmd, d1⟩) (t2 := ⟨cmd, d2⟩) hdecode⟩

end Machine
end Sys2Proof
end

section
/-! PROOFS. The pseudo-instructions (R55, 30_encoding.md). -/
namespace Sys2Proof.Machine

/-- Settles O58: each row of R55's table is the clause of `Pseudo.expand` for that pseudo-instruction. -/
theorem pseudoExpansions : Obligations.PseudoExpansions :=
  ⟨fun _ _ => rfl, fun _ => rfl, fun _ => rfl, rfl⟩

end Sys2Proof.Machine
end

section
/-!
PROOFS. The decoder on the words of the digit buffer commands (R66 to R70): each word, written by the encoder
as the concatenation its rule gives, decodes to its command whatever the data word.
-/
namespace Sys2Proof

open BitVec

/-- A word of a defined opcode with clear reserved fields decodes to the command its fields spell, when that
command is well-formed (R53, R108). -/
theorem decode_operandWord {hi : BitVec 24} {op : BitVec 4} {fm : Format} {data : DataWord} {i : Instr}
    (hop : formatOf op = some fm) (hclear : reservedClear fm (operandWord hi op))
    (hasm : assemble (operandWord hi op) data = i) (hwf : i.wellFormed) :
    decode (operandWord hi op) data = .ok i := by
  simp [decode, hop, hclear, hasm, hwf]

theorem decode_encodeCmd_clear (data : DataWord) : decode (encodeCmd .clear) data = .ok .clear := rfl

theorem decode_encodeCmd_rdbuf (data : DataWord) : decode (encodeCmd .rdbuf) data = .ok .rdbuf := rfl

theorem decode_encodeCmd_wraw (pos : BitVec 8) (mask : WideMask) (data : DataWord) :
    decode (encodeCmd (.wraw pos mask)) data = .ok (.wraw pos mask) := by
  have hpos : (mask ++ pos).extractLsb' 0 8 = pos := extractLsb'_append_eq_right
  have hmask : (mask ++ pos).extractLsb' 8 16 = mask := extractLsb'_append_eq_left
  exact decode_operandWord (hi := mask ++ pos) (op := 0x1) (fm := .p) rfl
    (by simp [reservedClear_operandWord]) (by simp [assemble, hpos, hmask]) rfl

theorem decode_encodeCmd_wdig (pos : BitVec 8) (digit : BitVec 4) (dp : Bool) (data : DataWord) :
    decode (encodeCmd (.wdig pos digit dp)) data = .ok (.wdig pos digit dp) := by
  have hpos : (0#11 ++ bit dp ++ digit ++ pos).extractLsb' 0 8 = pos := extractLsb'_append_eq_right
  have hdigit : (0#11 ++ bit dp ++ digit ++ pos).extractLsb' 8 4 = digit :=
    (extractLsb'_append_eq_of_le (by decide)).trans extractLsb'_append_eq_right
  have hdp : (0#11 ++ bit dp ++ digit ++ pos)[12] = dp :=
    calc (0#11 ++ bit dp ++ digit ++ pos)[12]
      _ = (0#11 ++ bit dp ++ digit).getLsbD 4 := getLsbD_append
      _ = (0#11 ++ bit dp).getLsbD 0 := getLsbD_append
      _ = dp := by cases dp <;> rfl
  have hzero : (0#11 ++ bit dp ++ digit ++ pos).extractLsb' 13 11 = 0#11 :=
    (extractLsb'_append_eq_of_le (by decide)).trans
      ((extractLsb'_append_eq_of_le (by decide)).trans extractLsb'_append_eq_left)
  exact decode_operandWord (hi := 0#11 ++ bit dp ++ digit ++ pos) (op := 0x2) (fm := .d) rfl
    (by simp [reservedClear_operandWord, hzero]) (by simp [assemble, hpos, hdigit, hdp]) rfl

theorem decode_encodeCmd_wsep (on : Bool) (data : DataWord) :
    decode (encodeCmd (.wsep on)) data = .ok (.wsep on) := by
  have hon : (0#23 ++ bit on)[0] = on := by cases on <;> rfl
  have hzero : (0#23 ++ bit on).extractLsb' 1 23 = 0#23 := extractLsb'_append_eq_left
  exact decode_operandWord (hi := 0#23 ++ bit on) (op := 0x3) (fm := .s) rfl
    (by simp [reservedClear_operandWord, hzero]) (by simp [assemble, hon]) rfl

end Sys2Proof
end

section
/-!
PROOFS. The digit buffer (R64 to R70, 41_buffer.md): the two primitives at every position, and from them the
five commands with their frame.
-/
namespace Sys2Proof.Machine

open BitVec

/-- What a numeric slot keeps of a mask is its low eight bits (R64). -/
theorem setWidth_eq_lowByte (m : WideMask) : m.setWidth 8 = m.extractLsb' 0 8 :=
  setWidth_eq_extractLsb' (by decide)

/-- `zext_16` of a mask written as a concatenation (R65). -/
theorem setWidth_eq_zeroHighByte (m : Mask) : m.setWidth 16 = 0#8 ++ m :=
  setWidth_eq_append (by decide)

/-- `dp << 7`, the point's bit of a mask (R65). -/
theorem pointBit_eq (dp : Bool) : (if dp then 0x80#8 else 0#8) = ofBool dp ++ 0#7 := by
  cases dp <;> rfl

/-- `WriteRaw` at a position field of a command, which is never below 0 (R64, R67, R68). -/
theorem writeRaw_pos (pos : BitVec 8) (m : WideMask) (b : Buffer) :
    writeRaw pos.toNat m b =
      if pos = 0 then { b with slot0 := .written (m.setWidth 8) }
      else if pos = 1 then { b with slot1 := .written (m.setWidth 8) }
      else if pos = 2 then { b with slot2 := .written m }
      else if pos = 3 then { b with slot3 := .written (m.setWidth 8) }
      else if pos = 4 then { b with slot4 := .written (m.setWidth 8) }
      else b := by
  split_ifs with h0 h1 h2 h3 h4
  · subst h0; rfl
  · subst h1; rfl
  · subst h2; rfl
  · subst h3; rfl
  · subst h4; rfl
  · have habove : 4 < pos.toNat := by bv_omega
    exact writeRaw_unbacked (.inr (by omega)) m b

/-- The packing of five written slots holds each at its fixed bit position, and 0 above them (R48). -/
theorem packSlots_fields {v0 v1 v3 v4 : BitVec 8} {v2 : BitVec 16} {rsp : RspWord}
    (h : packSlots ⟨.written v0, .written v1, .written v2, .written v3, .written v4⟩ = some rsp) :
    rsp.extractLsb' 0 8 = v0 ∧ rsp.extractLsb' 8 8 = v1 ∧ rsp.extractLsb' 16 16 = v2 ∧
      rsp.extractLsb' 32 8 = v3 ∧ rsp.extractLsb' 40 8 = v4 ∧ rsp.extractLsb' 48 16 = 0 := by
  cases h
  have above0 (k n : Nat) : (0#16 ++ v4 ++ v3 ++ v2 ++ v1 ++ v0).extractLsb' (k + 8) n =
      (0#16 ++ v4 ++ v3 ++ v2 ++ v1).extractLsb' k n := extractLsb'_append_eq_of_le (Nat.le_add_left ..)
  have above1 (k n : Nat) : (0#16 ++ v4 ++ v3 ++ v2 ++ v1 ++ v0).extractLsb' (k + 16) n =
      (0#16 ++ v4 ++ v3 ++ v2).extractLsb' k n :=
    (above0 (k + 8) n).trans (extractLsb'_append_eq_of_le (Nat.le_add_left ..))
  have above2 (k n : Nat) : (0#16 ++ v4 ++ v3 ++ v2 ++ v1 ++ v0).extractLsb' (k + 32) n =
      (0#16 ++ v4 ++ v3).extractLsb' k n :=
    (above1 (k + 16) n).trans (extractLsb'_append_eq_of_le (Nat.le_add_left ..))
  have above3 (k n : Nat) : (0#16 ++ v4 ++ v3 ++ v2 ++ v1 ++ v0).extractLsb' (k + 40) n =
      (0#16 ++ v4).extractLsb' k n :=
    (above2 (k + 8) n).trans (extractLsb'_append_eq_of_le (Nat.le_add_left ..))
  exact ⟨extractLsb'_append_eq_right, (above0 0 8).trans extractLsb'_append_eq_right,
    (above1 0 16).trans extractLsb'_append_eq_right, (above2 0 8).trans extractLsb'_append_eq_right,
    (above3 0 8).trans extractLsb'_append_eq_right, (above3 8 16).trans extractLsb'_append_eq_left⟩

/-- There is no packing while some slot is unwritten (R70). -/
theorem packSlots_eq_none {b : Buffer} (h : ¬ b.AllWritten) : packSlots b = none := by
  rwa [← packSlots_isSome_iff, Option.not_isSome_iff_eq_none] at h

theorem exec_rdbuf_of_some {s : State} {rsp : RspWord} (h : packSlots s.slot = some rsp) :
    exec .rdbuf s = .next (s.respond rsp) := by
  simp only [exec, execRdbuf, h]

theorem exec_rdbuf_of_none {s : State} (h : packSlots s.slot = none) :
    exec .rdbuf s = .next (s.takeFault .readUnwrittenSlot) := by
  simp only [exec, execRdbuf, h]

/-- Settles O18: with every slot written the response is their packing, whose fields are the slots again;
otherwise there is no packing. -/
theorem rdbufReturnsSlotsOrFaults : Obligations.RdbufReturnsSlotsOrFaults := by
  refine ⟨decode_encodeCmd_rdbuf, fun s v0 v1 v3 v4 v2 hslot => ?_, fun s hslot => ?_⟩
  · obtain ⟨rsp, hpack⟩ : ∃ rsp, packSlots s.slot = some rsp := by rw [hslot]; exact ⟨_, rfl⟩
    exact ⟨rsp, exec_rdbuf_of_some hpack, packSlots_fields (hslot ▸ hpack)⟩
  · exact exec_rdbuf_of_none (packSlots_eq_none hslot)

/-- Settles O12: each backed position is a clause of `WriteRaw`, and every other one drops the write. -/
theorem writeRawStoresOrDrops : Obligations.WriteRawStoresOrDrops := by
  intro m b
  rw [← setWidth_eq_lowByte]
  exact ⟨rfl, rfl, rfl, rfl, rfl, fun p hp => writeRaw_unbacked hp m b⟩

/-- Settles O13: the glyph is the font entry with the point in bit 7, zero-extended. -/
theorem writeDigitWritesFontEntry : Obligations.WriteDigitWritesFontEntry := by
  intro c p d dp b
  rw [writeDigit, setWidth_eq_zeroHighByte, glyph, pointBit_eq, segmentsFor]

/-- Settles O14: CLEAR's five writes leave 0 in every slot, whatever stood there. -/
theorem clearZeroesAllSlots : Obligations.ClearZeroesAllSlots :=
  ⟨decode_encodeCmd_clear, fun s => by rw [exec_clear, clearSlots_eq]; rfl⟩

/-- Settles O15: WRAW is `WriteRaw` at its position field. -/
theorem wrawStoresAtItsPosition : Obligations.WrawStoresAtItsPosition := by
  refine fun pos mask => ⟨decode_encodeCmd_wraw pos mask, fun s => ?_⟩
  rw [exec_wraw, writeRaw_pos, setWidth_eq_lowByte]
  rfl

/-- Settles O16: WDIG is `WriteRaw` of the zero-extended glyph, of which a numeric slot keeps the glyph. -/
theorem wdigStoresGlyph : Obligations.WdigStoresGlyph := by
  refine fun pos digit dp => ⟨decode_encodeCmd_wdig pos digit dp, fun s => ?_⟩
  rw [exec_wdig, writeDigit, writeRaw_pos, setWidth_glyph, setWidth_eq_zeroHighByte]
  rfl

/-- Settles O17: WSEP is `WriteRaw` at slot 2. -/
theorem wsepSetsSeparator : Obligations.WsepSetsSeparator := by
  refine fun on => ⟨decode_encodeCmd_wsep on, fun s => ?_⟩
  rw [exec_wsep, writeRaw_two]
  rfl

end Sys2Proof.Machine
end

section
/-! PROOFS. The decoder on the word of WCHR (R72, 42_stream.md). -/
namespace Sys2Proof

open BitVec

theorem decode_encodeCmd_wchr (c : BitVec 8) (data : DataWord) :
    decode (encodeCmd (.wchr c)) data = .ok (.wchr c) := by
  have hchar : (0#16 ++ c).extractLsb' 0 8 = c := extractLsb'_append_eq_right
  have hzero : (0#16 ++ c).extractLsb' 8 16 = 0#16 := extractLsb'_append_eq_left
  exact decode_operandWord (hi := 0#16 ++ c) (op := 0x6) (fm := .c) rfl
    (by simp [reservedClear_operandWord, hzero]) (by simp [assemble, hchar]) rfl

end Sys2Proof
end

section
/-!
PROOFS. The stream writer (R71, R72, 42_stream.md): the class of each character, what WCHR does with a character
of each class, and from them the transition at each cursor value.
-/
namespace Sys2Proof.Machine

open BitVec

theorem charClass_eq_lineEnd_iff {c : BitVec 8} : charClass c = .lineEnd ↔ c = 0x0A ∨ c = 0x0D := by
  unfold charClass
  split_ifs with hline <;> simp [hline]

/-- The codes of the digits are `3` in the high four bits and the digit in the low four (R71). -/
theorem charClass_digit {d : BitVec 4} (hd : d.toNat ≤ 9) : charClass (0x3#4 ++ d) = .digit d := by
  have hcode : (0x3#4 ++ d).toNat = 0x30 + d.toNat := by
    rw [toNat_append, ← Nat.shiftLeft_add_eq_or_of_lt d.isLt]
    rfl
  have hline : ¬ (0x3#4 ++ d = 0x0A#8 ∨ 0x3#4 ++ d = 0x0D#8) := by
    rintro (h | h) <;> simp [h] at hcode <;> omega
  have hrange : 0x30 ≤ 0x30 + d.toNat ∧ 0x30 + d.toNat ≤ 0x39 := by omega
  rw [charClass, if_neg hline, hcode, if_pos hrange, Nat.add_sub_cancel_left, ofNat_toNat, setWidth_eq]

theorem charClass_other {c : BitVec 8} (hnl : c ≠ 0x0A) (hcr : c ≠ 0x0D)
    (hc : c.toNat < 0x30 ∨ 0x39 < c.toNat) : charClass c = .other := by
  have hline : ¬ (c = 0x0A#8 ∨ c = 0x0D#8) := not_or.mpr ⟨hnl, hcr⟩
  have hrange : ¬ (0x30 ≤ c.toNat ∧ c.toNat ≤ 0x39) := by omega
  rw [charClass, if_neg hline, if_neg hrange]

section
variable {c : BitVec 8} {s : State}

theorem exec_wchr_lineEnd (hc : charClass c = .lineEnd) :
    exec (.wchr c) s = .next ((s.withCursor 0).respond 0) := by
  simp only [exec, execWchr, hc]

/-- Off a line end, WCHR faults on an unwritten cursor, be the character a digit or not (R72, R107). -/
theorem exec_wchr_unwritten (hc : charClass c ≠ .lineEnd) (hcur : s.cursor = .unwritten) :
    exec (.wchr c) s = .next (s.takeFault .readUnwrittenCursor) := by
  cases hclass : charClass c with
  | lineEnd => exact absurd hclass hc
  | digit d => simp only [exec, execWchr, hclass, hcur]
  | other => simp only [exec, execWchr, hclass, hcur]

theorem exec_wchr_digit {d : BitVec 4} {cur : BitVec 3} (hc : charClass c = .digit d)
    (hcur : s.cursor = .written cur) :
    exec (.wchr c) s = .next (((s.withSlot (writeDigit s.config cur.toNat d false s.slot)).withCursor
      (advanceCursor cur)).respond 1) := by
  simp only [exec, execWchr, hc, hcur]

theorem exec_wchr_other {cur : BitVec 3} (hc : charClass c = .other) (hcur : s.cursor = .written cur) :
    exec (.wchr c) s = .next ((s.withCursor (advanceCursor cur)).respond 0) := by
  simp only [exec, execWchr, hc, hcur]

end

/-- What a numeric slot keeps of a digit written with the point off is the font entry itself (R64, R65). -/
theorem setWidth_glyph_pointOff (c : Config) (d : BitVec 4) :
    ((glyph c d false).setWidth 16).setWidth 8 = c.font[d.toFin] :=
  (setWidth_glyph c d false).trans or_zero

theorem State.withCursor_eq_self {s : State} {cur : BitVec 3} (hcur : s.cursor = .written cur) :
    s.withCursor cur = s := by
  rw [State.withCursor, ← hcur]

/-- At cursor 5 a digit is written nowhere and the cursor stays, so only the reply is left (R64, R72). -/
theorem exec_wchr_digit_at_end {c : BitVec 8} {d : BitVec 4} {s : State} (hc : charClass c = .digit d)
    (hcur : s.cursor = .written 5) : exec (.wchr c) s = .next (s.respond 1) := by
  have hdrop : writeDigit s.config (5 : BitVec 3).toNat d false s.slot = s.slot :=
    writeRaw_unbacked (by decide) ..
  have hstay : (s.withSlot s.slot).withCursor (advanceCursor 5) = s := State.withCursor_eq_self hcur
  rw [exec_wchr_digit hc hcur, hdrop, hstay]

/-- Settles O19: the class of the character and the cursor pick WCHR's case. At each literal cursor value the
slot write and the advance of that case evaluate to the stated ones. -/
theorem wchrFollowsItsTransition : Obligations.WchrFollowsItsTransition := by
  refine ⟨decode_encodeCmd_wchr, fun c s hline => ?lineEnd, fun c s hnl hcr hcur => ?unwritten,
    fun c d s hc hd => ?digit, fun c s hnl hcr hc => ?other⟩
  case lineEnd => exact exec_wchr_lineEnd (charClass_eq_lineEnd_iff.mpr hline)
  case unwritten => exact exec_wchr_unwritten (charClass_eq_lineEnd_iff.not.mpr (not_or.mpr ⟨hnl, hcr⟩)) hcur
  case digit =>
    have hclass : charClass c = .digit d := hc ▸ charClass_digit hd
    rw [← setWidth_glyph_pointOff]
    exact ⟨exec_wchr_digit hclass, exec_wchr_digit hclass, exec_wchr_digit hclass, exec_wchr_digit hclass,
      exec_wchr_digit_at_end hclass⟩
  case other =>
    have hclass : charClass c = .other := charClass_other hnl hcr hc
    exact ⟨exec_wchr_other hclass, exec_wchr_other hclass, exec_wchr_other hclass, exec_wchr_other hclass,
      exec_wchr_other hclass⟩

end Sys2Proof.Machine
end

section
/-!
PROOFS. The error pattern (R77, R92, 43_formatter.md): a data word that encodes no finite number has no value
in either numeric domain, so FMT shows the pattern; ERRPAT writes the same pattern slot by slot.
-/
namespace Sys2Proof.Machine

theorem baseAdmitted_iff {base : BitVec 8} : baseAdmitted base ↔ 2 ≤ base.toNat ∧ base.toNat ≤ 16 := by
  simp [baseAdmitted]

theorem exec_fmt_of_admitted {base : BitVec 8} (hbase : baseAdmitted base) (value : DataWord) (fd : BitVec 8)
    (s : State) :
    exec (.fmt value fd base) s =
      .next ((s.withSlot (fmtBuffer s.config value fd base s.slot)).respond 0) :=
  if_pos hbase

section
variable {data : DataWord} (hexp : data.extractLsb' 52 11 = 2047#11)
include hexp

theorem nIsFinite_eq_false : nIsFinite data = false := by
  simp [nIsFinite, hexp]

/-- `nOfBits` of BINARY64 is not defined on an infinity or NaN pattern (R11). -/
theorem binary64Ops_ofBits_nonFinite : binary64Ops.ofBits data = none := by
  simp [binary64Ops, nIsFinite_eq_false hexp]

/-- `nOfBits` of EXACT is not defined on an infinity or NaN pattern (R11). -/
theorem exactOps_ofBits_nonFinite : exactOps.ofBits data = none := by
  have hex : (data.extractLsb' 52 11).toNat = 2047 := by rw [hexp]; rfl
  by_cases hfr : (data.extractLsb' 0 52).toNat = 0
  · have hinf : F64.ofBits data = .inf (data.getLsbD 63) := by rw [F64.ofBits, if_pos hex, if_pos hfr]
    exact congrArg F64.toRat? hinf
  · have hnan : F64.ofBits data = .nan := by rw [F64.ofBits, if_pos hex, if_neg hfr]
    exact congrArg F64.toRat? hnan

/-- The buffer of FMT on an infinity or NaN pattern is the error pattern in the configured domain (R77). -/
theorem fmtBuffer_nonFinite (c : Config) (fd base : BitVec 8) (b : Buffer) :
    fmtBuffer c data fd base b = showError b := by
  cases hnum : c.num with
  | binary64 => simp only [fmtBuffer, hnum, formatBits, binary64Ops_ofBits_nonFinite hexp]
  | exact => simp only [fmtBuffer, hnum, formatBits, exactOps_ofBits_nonFinite hexp]

end

/-- Settles O26: under an admitted base FMT writes its buffer, which is the error pattern. -/
theorem nonFiniteShowsErrorPattern : Obligations.NonFiniteShowsErrorPattern := by
  intro value fd base s hexp hlow hhigh
  rw [exec_fmt_of_admitted (baseAdmitted_iff.mpr ⟨hlow, hhigh⟩), fmtBuffer_nonFinite hexp, showError_eq]
  rfl

/-- Settles O59: the five writes of ERRPAT reach every slot, so nothing of the buffer before is left. -/
theorem errpatLeavesErrorPattern : Obligations.ErrpatLeavesErrorPattern := by
  intro s s1 s2 s3 s4 s5 h1 h2 h3 h4 h5
  rw [exec_wraw] at h1 h2 h3 h4 h5
  cases h1; cases h2; cases h3; cases h4; cases h5
  rw [showError_eq]
  exact ⟨rfl, rfl⟩

end Sys2Proof.Machine
end

section
/-! PROOFS. The state at reset (R119, 70_reset_and_hazards.md). -/
namespace Sys2Proof.Machine

/-- Settles O1: each row of R119's table is the field of `State.reset` for that piece of state; the font is
FONT_STD, entry by entry the table of R62. -/
theorem resetLeavesEverythingUnwritten : Obligations.ResetLeavesEverythingUnwritten :=
  have hslot : State.reset.slot = Buffer.unwritten := rfl
  have hfont : State.reset.config.font = fontStd := rfl
  ⟨hslot, rfl, rfl, rfl, hfont⟩

end Sys2Proof.Machine
end

section
/-!
PROOFS. The decoder and the encoder are inverse to each other (R42 to R53, 30_encoding.md): the encoder's word
of a command decodes to it, and a word that decodes is the encoder's word of its command.
-/
namespace Sys2Proof

open BitVec

/-! ### From commands to words -/

theorem decode_encodeCmd_rcur (data : DataWord) : decode (encodeCmd .rcur) data = .ok .rcur := rfl

/-- The fields of the operand bits that FMT and FMTI share (R93, R94). -/
theorem formatOperands_fields (fd base : BitVec 8) :
    (0#8 ++ base ++ fd).extractLsb' 0 8 = fd ∧ (0#8 ++ base ++ fd).extractLsb' 8 8 = base ∧
      (0#8 ++ base ++ fd).extractLsb' 16 8 = 0#8 :=
  ⟨extractLsb'_append_eq_right, (extractLsb'_append_eq_of_le (by decide)).trans extractLsb'_append_eq_right,
    (extractLsb'_append_eq_of_le (by decide)).trans extractLsb'_append_eq_left⟩

section
variable {base : BitVec 8} (hbase : baseAdmitted base) (value : DataWord) (fd : BitVec 8)
include hbase

theorem decode_encodeCmd_fmt :
    decode (encodeCmd (.fmt value fd base)) value = .ok (.fmt value fd base) := by
  obtain ⟨hfd, hb, hzero⟩ := formatOperands_fields fd base
  exact decode_operandWord (hi := 0#8 ++ base ++ fd) (op := 0x4) (fm := .f) rfl
    (by simp [reservedClear_operandWord, hzero]) (by simp [assemble, hfd, hb]) hbase

theorem decode_encodeCmd_fmti :
    decode (encodeCmd (.fmti value fd base)) value = .ok (.fmti value fd base) := by
  obtain ⟨hfd, hb, hzero⟩ := formatOperands_fields fd base
  exact decode_operandWord (hi := 0#8 ++ base ++ fd) (op := 0x5) (fm := .f) rfl
    (by simp [reservedClear_operandWord, hzero]) (by simp [assemble, hfd, hb]) hbase

end

/-- Settles O8: by the nine commands, each by the decoder on its own word. -/
theorem decodeOfEncode : Obligations.DecodeOfEncode := by
  intro i hwf
  cases i with
  | clear => exact decode_encodeCmd_clear _
  | wraw pos mask => exact decode_encodeCmd_wraw pos mask _
  | wdig pos digit dp => exact decode_encodeCmd_wdig pos digit dp _
  | wsep on => exact decode_encodeCmd_wsep on _
  | fmt value fd base => exact decode_encodeCmd_fmt hwf value fd
  | fmti value fd base => exact decode_encodeCmd_fmti hwf value fd
  | wchr c => exact decode_encodeCmd_wchr c _
  | rcur => exact decode_encodeCmd_rcur _
  | rdbuf => exact decode_encodeCmd_rdbuf _

/-! ### From words to commands -/

/-- The decoder's three checks, in the order of R108. -/
theorem decode_eq_ok_iff {cmd : CmdWord} {data : DataWord} {i : Instr} :
    decode cmd data = .ok i ↔
      ∃ fm, formatOf (opOf cmd) = some fm ∧ reservedClear fm cmd ∧ assemble cmd data = i ∧ i.wellFormed := by
  cases hfm : formatOf (opOf cmd) with
  | none => simp [decode, hfm]
  | some fm =>
    simp only [decode, hfm, Option.some.injEq, exists_eq_left']
    split_ifs with hclear hwf
    · exact ⟨by rintro ⟨⟩; exact ⟨hclear, rfl, hwf⟩, fun ⟨_, h, _⟩ => congrArg _ h⟩
    · exact ⟨nofun, fun ⟨_, h, hwf'⟩ => absurd (h ▸ hwf') hwf⟩
    · exact ⟨nofun, fun ⟨h, _⟩ => absurd h hclear⟩

/-- Two fields of a word that lie side by side are one field. -/
theorem extract_append_extract (x : BitVec 32) (s m n : Nat) :
    x.extractLsb' (s + m) n ++ x.extractLsb' s m = x.extractLsb' s (n + m) :=
  extractLsb'_append_extractLsb'_eq_extractLsb' rfl

/-- A word whose `cmd[7:4]` is 0 is made of its operand bits and its opcode (R42, R43). -/
theorem operandWord_extract {cmd : CmdWord} (h : cmd.extractLsb' 4 4 = 0#4) :
    operandWord (cmd.extractLsb' 8 24) (opOf cmd) = cmd := by
  rw [operandWord, ← h]
  calc cmd.extractLsb' 8 24 ++ cmd.extractLsb' 4 4 ++ cmd.extractLsb' 0 4
    _ = cmd.extractLsb' 4 28 ++ cmd.extractLsb' 0 4 :=
      congrArg (· ++ cmd.extractLsb' 0 4) (extract_append_extract cmd 4 4 24)
    _ = cmd.extractLsb' 0 32 := extract_append_extract cmd 0 4 28
    _ = cmd := by simp

/-- The operand bits `cmd[31:8]` as the encoder writes them from the fields of each format (R43, R44). -/
def Format.operandBits (fm : Format) (cmd : CmdWord) : BitVec 24 :=
  match fm with
  | .n => 0#24
  | .p => maskField cmd ++ byteField cmd
  | .d => 0#11 ++ bit (dpField cmd) ++ digitField cmd ++ byteField cmd
  | .s => 0#23 ++ bit (onField cmd)
  | .f => 0#8 ++ baseField cmd ++ byteField cmd
  | .c => 0#16 ++ byteField cmd

/-- A one-bit field is that bit of the word (R44). -/
theorem bit_getLsbD (cmd : CmdWord) (k : Nat) : bit (cmd.getLsbD k) = cmd.extractLsb' k 1 := by
  ext j hj
  simp [bit, show j = 0 by omega]

/-- With a clear reserved field the operand bits are what the encoder writes from the fields. -/
theorem Format.operandBits_eq {fm : Format} {cmd : CmdWord} (h : fm.fieldClear cmd) :
    fm.operandBits cmd = cmd.extractLsb' 8 24 := by
  cases fm with
  | n => exact (beq_iff_eq.mp h).symm
  | p => exact extract_append_extract cmd 8 8 16
  | d =>
    rw [Format.operandBits, dpField, bit_getLsbD, ← beq_iff_eq.mp h]
    calc cmd.extractLsb' 21 11 ++ cmd.extractLsb' 20 1 ++ cmd.extractLsb' 16 4 ++ cmd.extractLsb' 8 8
      _ = cmd.extractLsb' 20 12 ++ cmd.extractLsb' 16 4 ++ cmd.extractLsb' 8 8 :=
        congrArg (· ++ cmd.extractLsb' 16 4 ++ cmd.extractLsb' 8 8) (extract_append_extract cmd 20 1 11)
      _ = cmd.extractLsb' 16 16 ++ cmd.extractLsb' 8 8 :=
        congrArg (· ++ cmd.extractLsb' 8 8) (extract_append_extract cmd 16 4 12)
      _ = cmd.extractLsb' 8 24 := extract_append_extract cmd 8 8 16
  | s =>
    rw [Format.operandBits, onField, bit_getLsbD, ← beq_iff_eq.mp h]
    exact extract_append_extract cmd 8 1 23
  | f =>
    rw [Format.operandBits, baseField, byteField, ← beq_iff_eq.mp h]
    exact (congrArg (fun x : BitVec 16 => x ++ cmd.extractLsb' 8 8) (extract_append_extract cmd 16 8 8)).trans
      (extract_append_extract cmd 8 8 16)
  | c =>
    rw [Format.operandBits, ← beq_iff_eq.mp h]
    exact extract_append_extract cmd 8 8 16

/-- An opcode is the number it stands for. -/
theorem opOf_eq_ofNat {cmd : CmdWord} {k : Nat} (h : (opOf cmd).toNat = k) : opOf cmd = BitVec.ofNat 4 k := by
  rw [← h, ofNat_toNat, setWidth_eq]

/-- The encoder puts the operand fields of a word's format and its opcode back into their places (R43). -/
theorem encodeCmd_assemble {fm : Format} {cmd : CmdWord} (hfm : formatOf (opOf cmd) = some fm)
    (data : DataWord) : encodeCmd (assemble cmd data) = operandWord (fm.operandBits cmd) (opOf cmd) := by
  simp only [formatOf] at hfm
  split at hfm <;> cases hfm
  all_goals
    rename_i hop
    rw [assemble, hop, opOf_eq_ofNat hop]
    rfl

/-- For opcodes 4 and 5 the data word is the command's value (R45). -/
theorem encodeData_assemble {cmd : CmdWord} (hop : opOf cmd = 4#4 ∨ opOf cmd = 5#4) (data : DataWord) :
    encodeData (assemble cmd data) = data := by
  rcases hop with hop | hop <;> rw [assemble, hop] <;> rfl

/-- Settles O9: a word that decodes has a format and clear reserved fields, so it is what the encoder
makes of the command its fields spell. -/
theorem encodeOfDecode : Obligations.EncodeOfDecode := by
  intro cmd data i h
  obtain ⟨fm, hfm, hclear, rfl, hwf⟩ := decode_eq_ok_iff.mp h
  obtain ⟨hlow, hfield⟩ : cmd.extractLsb' 4 4 = 0#4 ∧ fm.fieldClear cmd := by
    simpa [reservedClear] using hclear
  refine ⟨hwf, ?_, fun hop => encodeData_assemble hop data⟩
  rw [encodeCmd_assemble hfm, Format.operandBits_eq hfield, operandWord_extract hlow]

/-! ### The order of the checks -/

/-- The mask of the `n` bits from bit `s` on. -/
def fieldMask (s n : Nat) : CmdWord := (allOnes n).setWidth 32 <<< s

/-- A field is 0 exactly when no bit of its mask is set in the word. -/
theorem and_fieldMask_eq_zero_iff (cmd : CmdWord) {s n : Nat} (h : s + n ≤ 32) :
    cmd &&& fieldMask s n = 0#32 ↔ cmd.extractLsb' s n = 0#n := by
  constructor
  · intro hz
    ext j hj
    have hbit := congrArg (·.getLsbD (s + j)) hz
    have hlt : s + j < 32 := by omega
    have hge : ¬ s + j < s := by omega
    have hj32 : j < 32 := by omega
    simpa [fieldMask, hlt, hge, hj, hj32] using hbit
  · intro hz
    ext j hj
    by_cases hin : s ≤ j ∧ j < s + n
    · have hbit := congrArg (·.getLsbD (j - s)) hz
      have hlt : j - s < n := by omega
      have hadd : s + (j - s) = j := by omega
      simp [hlt, hadd] at hbit
      simp [hbit, ← BitVec.getLsbD_eq_getElem hj]
    · simp [fieldMask]
      omega

/-- The mask of a format's own reserved field (R43). -/
def Format.fieldBits : Format → CmdWord
  | .n => fieldMask 8 24
  | .p => 0
  | .d => fieldMask 21 11
  | .s => fieldMask 9 23
  | .f => fieldMask 24 8
  | .c => fieldMask 16 16

theorem Format.fieldClear_iff (fm : Format) (cmd : CmdWord) :
    fm.fieldClear cmd ↔ cmd &&& fm.fieldBits = 0#32 := by
  cases fm with
  | p => simp [Format.fieldClear, Format.fieldBits]
  | _ => exact beq_iff_eq.trans (and_fieldMask_eq_zero_iff cmd (by decide)).symm

/-- The reserved bits of an opcode are `cmd[7:4]` and the reserved field of its format (R43, R51). -/
theorem reservedBits_eq {op : BitVec 4} {fm : Format} (h : formatOf op = some fm) :
    Machine.reservedBits op = fieldMask 4 4 ||| fm.fieldBits := by
  simp only [formatOf] at h
  split at h <;> cases h
  all_goals
    rename_i hop
    rw [Machine.reservedBits, hop]
    rfl

theorem reservedClear_iff {cmd : CmdWord} {fm : Format} (h : formatOf (opOf cmd) = some fm) :
    reservedClear fm cmd ↔ cmd &&& Machine.reservedBits (opOf cmd) = 0#32 := by
  rw [reservedBits_eq h, and_or_distrib_left, or_eq_zero_iff, ← Format.fieldClear_iff fm,
    and_fieldMask_eq_zero_iff cmd (by decide)]
  simp [reservedClear]

theorem formatOf_eq_none_iff (op : BitVec 4) : formatOf op = none ↔ 9 ≤ op.toNat := by
  revert op; decide

/-- Only the base of a format request can make a command of clear reserved fields ill-formed (R52). -/
theorem wellFormed_assemble_iff (cmd : CmdWord) (data : DataWord) :
    (assemble cmd data).wellFormed ↔
      ¬ ((opOf cmd = 4#4 ∨ opOf cmd = 5#4) ∧ ¬ baseAdmitted (baseField cmd)) := by
  have hne {k : Nat} (h : (opOf cmd).toNat = k) (h4 : k ≠ 4) (h5 : k ≠ 5) :
      ¬ (opOf cmd = 4#4 ∨ opOf cmd = 5#4) := by
    rintro (he | he) <;> rw [he] at h
    · exact h4 h.symm
    · exact h5 h.symm
  unfold assemble
  split
  case h_5 h4 => simp [Instr.wellFormed, opOf_eq_ofNat h4]
  case h_6 h5 => simp [Instr.wellFormed, opOf_eq_ofNat h5]
  case h_9 h0 h1 h2 h3 h4 h5 h6 h7 => simpa [Instr.wellFormed] using fun h => absurd h (hne rfl h4 h5)
  all_goals
    rename_i hop
    simpa [Instr.wellFormed] using fun h => absurd h (hne hop (by decide) (by decide))

/-- Settles O10: the opcode, then the reserved bits, then the base decide what the decoder answers. -/
theorem refusalReasonsInOrder : Obligations.RefusalReasonsInOrder := by
  intro cmd data op base
  have hadm : baseAdmitted (baseField cmd) ↔ 2 ≤ base ∧ base ≤ 16 := Machine.baseAdmitted_iff
  have hfmt (hop : op.toNat < 9) : ∃ fm, formatOf (opOf cmd) = some fm :=
    Option.ne_none_iff_exists'.mp ((formatOf_eq_none_iff _).not.mpr (Nat.not_le.mpr hop))
  refine ⟨fun hop => ?opcode, fun hop hres => ?field, fun hop hres => ⟨fun hbad => ?base, fun hgood => ?ok⟩⟩
  case opcode => simp [decode, (formatOf_eq_none_iff (opOf cmd)).mpr hop]
  case field =>
    obtain ⟨fm, hfm⟩ := hfmt hop
    simp [decode, hfm, (reservedClear_iff hfm).not.mpr hres]
  case base =>
    obtain ⟨fm, hfm⟩ := hfmt hop
    have hill : ¬ (assemble cmd data).wellFormed := by rwa [wellFormed_assemble_iff, hadm, Classical.not_not]
    simp [decode, hfm, (reservedClear_iff hfm).mpr hres, hill]
  case ok =>
    obtain ⟨fm, hfm⟩ := hfmt hop
    have hwf : (assemble cmd data).wellFormed := by rwa [wellFormed_assemble_iff, hadm]
    exact ⟨_, decode_eq_ok_iff.mpr ⟨fm, hfm, (reservedClear_iff hfm).mpr hres, rfl, hwf⟩⟩

/-- Settles O3: the nine example words, evaluated. -/
theorem exampleWordsDecode : Obligations.ExampleWordsDecode :=
  ⟨rfl, rfl, rfl, rfl, rfl, rfl, rfl, rfl, rfl⟩

end Sys2Proof
end

section
/-!
PROOFS. The rendering loops (R85 to R91, 43_formatter.md) against the closed form of R99: the digit loop has
emitted digits 0 to i - 1 and holds `dv / base^i`, it goes on exactly while digit i is emitted, and what it
does at a pointer below 0 leaves the buffer.
-/
namespace Sys2Proof.Machine

/-! ### The digit loop, turn by turn -/

section
variable {c : Config} {base dv i k : Nat} {fd : Int} {pen : Pen}

/-- The condition of the digit loop with `i` digits out is that digit `i` is emitted (R85, R99). -/
theorem digitEmitted_iff (hbase : 0 < base) :
    digitEmitted base fd dv i ↔ dv / base ^ i ≠ 0 ∨ (i : Int) ≤ fd := by
  have hpow : 0 < base ^ i := Nat.pow_pos hbase
  simp only [digitEmitted, Bool.or_eq_true, decide_eq_true_eq, ne_eq, Nat.div_eq_zero_iff, hpow.ne', false_or,
    not_lt]

/-- The digits emitted are the first ones (R99). -/
theorem digitEmitted_of_le (hbase : 0 < base) {j : Nat} (hij : i ≤ j) (h : digitEmitted base fd dv j) :
    digitEmitted base fd dv i := by
  simp only [digitEmitted, Bool.or_eq_true, decide_eq_true_eq] at h ⊢
  rcases h with h | h
  · exact .inl ((Nat.pow_le_pow_right hbase hij).trans h)
  · exact .inr (by omega)

/-- The mask of digit `k`, with its point (R65, R86, R99). -/
def digitMask (c : Config) (base : Nat) (fd : Int) (dv k : Nat) : Mask :=
  glyph c (BitVec.ofNat 4 (dv / base ^ k % base)) (pointAt fd k)

theorem renderLoop_of_emitted (hbase : 0 < base) (h : digitEmitted base fd dv i) :
    renderLoop c base fd (k + 1) i (dv / base ^ i) pen =
      renderLoop c base fd k (i + 1) (dv / base ^ (i + 1))
        (emitDigit c (BitVec.ofNat 4 (dv / base ^ i % base)) (pointAt fd i) pen) := by
  rw [renderLoop, if_pos ((digitEmitted_iff hbase).mp h), Nat.div_div_eq_div_mul, ← pow_succ]

theorem renderLoop_of_not_emitted (hbase : 0 < base) (h : ¬ digitEmitted base fd dv i) :
    renderLoop c base fd k i (dv / base ^ i) pen = pen := by
  cases k with
  | zero => rfl
  | succ k => rw [renderLoop, if_neg ((digitEmitted_iff hbase).not.mp h)]

end

/-! ### A pointer below 0 -/

section
variable {c : Config} {base : Nat} {fd : Int}

/-- A digit emitted at a pointer below 0 is dropped, and the pointer stays below 0 (R91). -/
theorem emitDigit_below {pen : Pen} (hp : pen.p < 0) (d : BitVec 4) (dp : Bool) :
    (emitDigit c d dp pen).buf = pen.buf ∧ (emitDigit c d dp pen).p < 0 := by
  have hskip : pen.p - 1 ≠ 2 := by omega
  rw [emitDigit, if_neg hskip, writeDigit, writeRaw_unbacked (.inl hp)]
  exact ⟨rfl, by simp only; omega⟩

/-- The digit loop from a pointer below 0 leaves the buffer (R91). -/
theorem renderLoop_below {k i dv : Nat} {pen : Pen} (hp : pen.p < 0) :
    (renderLoop c base fd k i dv pen).buf = pen.buf ∧ (renderLoop c base fd k i dv pen).p < 0 := by
  induction k generalizing i dv pen with
  | zero => exact ⟨rfl, hp⟩
  | succ k ih =>
    rw [renderLoop]
    split_ifs
    · obtain ⟨hbuf, hneg⟩ := emitDigit_below (c := c) hp (BitVec.ofNat 4 (dv % base)) (pointAt fd i)
      exact ⟨(ih hneg).1.trans hbuf, (ih hneg).2⟩
    · exact ⟨rfl, hp⟩

/-- Steps 8 and 9 at a pointer below 0 leave the buffer: the sign is dropped and nothing is padded
(R89 to R91). -/
theorem finishRender_below {pen : Pen} (hp : pen.p < 0) (negative : Bool) :
    renderPadding (renderSign negative pen) = pen.buf := by
  have hnone {q : Int} (hq : q < 0) : (q + 1).toNat = 0 := by omega
  cases negative with
  | false => simp [renderSign, renderPadding, hnone hp, blankBelow]
  | true => simp [renderSign, renderPadding, writeRaw_unbacked (.inl hp), Int.toNat_of_nonpos hp.le, blankBelow]

/-- Steps 7 to 9 from a pointer below 0 leave the buffer (R91). -/
theorem finishRender_renderLoop_below {k i dv : Nat} {pen : Pen} {negative : Bool} (hp : pen.p < 0) :
    renderPadding (renderSign negative (renderLoop c base fd k i dv pen)) = pen.buf := by
  obtain ⟨hbuf, hneg⟩ := renderLoop_below (c := c) (base := base) (fd := fd) (k := k) (i := i) (dv := dv) hp
  rw [finishRender_below hneg, hbuf]

/-- Steps 8 and 9 leave the same buffer after the loop that stops at a pointer below 0 (R98). -/
theorem finishRender_renderLoopEarly {k i dv : Nat} {pen : Pen} (negative : Bool) :
    renderPadding (renderSign negative (renderLoopEarly c base fd k i dv pen)) =
      renderPadding (renderSign negative (renderLoop c base fd k i dv pen)) := by
  induction k generalizing i dv pen with
  | zero => rfl
  | succ k ih =>
    by_cases hp : pen.p < 0
    · rw [renderLoopEarly, if_neg (fun h => absurd h.2 (not_le.mpr hp)), finishRender_below hp,
        finishRender_renderLoop_below hp]
    · by_cases hgo : dv ≠ 0 ∨ (i : Int) ≤ fd
      · rw [renderLoopEarly, if_pos ⟨hgo, not_lt.mp hp⟩, renderLoop, if_pos hgo, ih]
      · rw [renderLoopEarly, if_neg (fun h => hgo h.1), renderLoop, if_neg hgo]

end

/-- Settles O39: the two loops differ only from a pointer below 0 on, where nothing is written. -/
theorem earlyStopSameBuffer : Obligations.EarlyStopSameBuffer := by
  intro c base dv fd negative b
  rw [renderEarly, render, renderDigits]
  split_ifs
  · rfl
  · exact finishRender_renderLoopEarly negative

/-! ### The bound on the turns -/

/-- Once digit `i + k` is not emitted, `k` turns from `i` on are as good as any larger number. -/
theorem renderLoop_add {c : Config} {base dv i k : Nat} {fd : Int} {pen : Pen} (hbase : 0 < base)
    (h : ¬ digitEmitted base fd dv (i + k)) (extra : Nat) :
    renderLoop c base fd (k + extra) i (dv / base ^ i) pen =
      renderLoop c base fd k i (dv / base ^ i) pen := by
  induction k generalizing i pen with
  | zero =>
    rw [add_zero] at h
    rw [renderLoop_of_not_emitted hbase h, renderLoop_of_not_emitted hbase h]
  | succ k ih =>
    by_cases he : digitEmitted base fd dv i
    · have hnext : ¬ digitEmitted base fd dv (i + 1 + k) := by rwa [add_assoc, add_comm 1 k]
      rw [add_right_comm, renderLoop_of_emitted hbase he, renderLoop_of_emitted hbase he, ih hnext]
    · rw [renderLoop_of_not_emitted hbase he, renderLoop_of_not_emitted hbase he]

/-- No digit from the 256th on is emitted for a `dv` and an `fd` the formatter meets (R96). -/
theorem not_digitEmitted_maxTurns {base dv : Nat} {fd : Int} (hbase : 2 ≤ base) (hdv : dv < 65536)
    (hfd : fd ≤ 255) : ¬ digitEmitted base fd dv maxTurns := by
  have hpow : 2 ^ 16 ≤ base ^ maxTurns :=
    (Nat.pow_le_pow_left hbase 16).trans (Nat.pow_le_pow_right (by omega) (by decide))
  have hturns : (maxTurns : Int) = 256 := rfl
  simp only [digitEmitted, Bool.or_eq_true, decide_eq_true_eq]
  omega

/-- Settles O37: digit 256 is not emitted, so the loop has ended by then. -/
theorem digitLoopEndsWithinBound : Obligations.DigitLoopEndsWithinBound := by
  intro c base dv extra fd pen hbase hdv hfd
  have hend : ¬ digitEmitted base fd dv (0 + maxTurns) := by
    rw [Nat.zero_add]
    exact not_digitEmitted_maxTurns hbase hdv hfd
  simpa using renderLoop_add (c := c) (pen := pen) (by omega) hend extra

/-! ### The closed form -/

section
variable {c : Config} {base dv k : Nat} {fd : Int} {negative : Bool}

theorem numeralMask_of_emitted (h : digitEmitted base fd dv k) :
    numeralMask c base fd dv negative k = digitMask c base fd dv k := by
  simp [numeralMask, h, digitMask, glyph, pointAt]

/-- The sign stands to the left of the last digit emitted (R89). -/
theorem numeralMask_sign (h : ¬ digitEmitted base fd dv (k + 1)) (hlast : digitEmitted base fd dv k) :
    numeralMask c base fd dv negative (k + 1) = if negative then 0x40#8 else 0#8 := by
  simp [numeralMask, h, hlast]

/-- Left of the sign the display is blank (R90). -/
theorem numeralMask_blank (h : ¬ digitEmitted base fd dv (k + 1)) (hlast : ¬ digitEmitted base fd dv k) :
    numeralMask c base fd dv negative (k + 1) = 0#8 := by
  simp [numeralMask, h, hlast]

end

section
variable (c : Config) (d : BitVec 4) (dp : Bool) (b : Buffer)

/-- What a digit at each slot pointer of the digit loop leaves: 4, 3, then 1 past the separator, 0, and -1
(R85, R87). -/
theorem emitDigit_four : emitDigit c d dp ⟨b, 4⟩ = ⟨{ b with slot4 := .written (glyph c d dp) }, 3⟩ := by
  simp [emitDigit, writeDigit]
theorem emitDigit_three :
    emitDigit c d dp ⟨b, 3⟩ = ⟨{ b with slot2 := .written 0, slot3 := .written (glyph c d dp) }, 1⟩ := by
  simp [emitDigit, writeDigit]
theorem emitDigit_one : emitDigit c d dp ⟨b, 1⟩ = ⟨{ b with slot1 := .written (glyph c d dp) }, 0⟩ := by
  simp [emitDigit, writeDigit]
theorem emitDigit_zero : emitDigit c d dp ⟨b, 0⟩ = ⟨{ b with slot0 := .written (glyph c d dp) }, -1⟩ := by
  simp [emitDigit, writeDigit]

end

/-- The four numeric slots with a blank separator, the rightmost slot first. -/
def displayOf (m0 m1 m2 m3 : Mask) : Buffer :=
  ⟨.written m3, .written m2, .written 0, .written m1, .written m0⟩

/-- Rendering a `dv` that is not 0, whatever the buffer before: the four digits or, from the first digit not
emitted on, the sign and blanks (R85 to R91). -/
theorem render_of_ne_zero (c : Config) {base dv : Nat} (fd : Int) (negative : Bool) (b : Buffer)
    (hbase : 0 < base) (hdv : dv ≠ 0) :
    render c base fd dv negative b = displayOf (numeralMask c base fd dv negative 0)
      (numeralMask c base fd dv negative 1) (numeralMask c base fd dv negative 2)
      (numeralMask c base fd dv negative 3) := by
  have h0 : digitEmitted base fd dv 0 := (digitEmitted_iff hbase).mpr (.inl (by simpa using hdv))
  have hmono {i j : Nat} (hij : i ≤ j) : ¬ digitEmitted base fd dv i → ¬ digitEmitted base fd dv j :=
    mt (digitEmitted_of_le hbase hij)
  have hstart : render c base fd dv negative b =
      renderPadding (renderSign negative (renderLoop c base fd maxTurns 0 (dv / base ^ 0) ⟨b, 4⟩)) := by
    rw [render, renderDigits, if_neg hdv, pow_zero, Nat.div_one]
  rw [hstart, maxTurns, renderLoop_of_emitted hbase h0, emitDigit_four, numeralMask_of_emitted h0]
  by_cases h1 : digitEmitted base fd dv 1
  case neg =>
    have h2 := hmono (Nat.le_succ 1) h1
    rw [renderLoop_of_not_emitted hbase h1, numeralMask_sign h1 h0, numeralMask_blank h2 h1,
      numeralMask_blank (hmono (Nat.le_succ 2) h2) h2]
    cases negative <;> rfl
  rw [renderLoop_of_emitted hbase h1, emitDigit_three, numeralMask_of_emitted h1]
  by_cases h2 : digitEmitted base fd dv 2
  case neg =>
    rw [renderLoop_of_not_emitted hbase h2, numeralMask_sign h2 h1,
      numeralMask_blank (hmono (Nat.le_succ 2) h2) h2]
    cases negative <;> rfl
  rw [renderLoop_of_emitted hbase h2, emitDigit_one, numeralMask_of_emitted h2]
  by_cases h3 : digitEmitted base fd dv 3
  case neg =>
    rw [renderLoop_of_not_emitted hbase h3, numeralMask_sign h3 h2]
    cases negative <;> rfl
  rw [renderLoop_of_emitted hbase h3, emitDigit_zero, numeralMask_of_emitted h3]
  exact finishRender_renderLoop_below (show (-1 : Int) < 0 by decide)

/-- Rendering 0 shows a single 0 in slot 4, under its sign (R88, R89). -/
theorem render_zero (c : Config) (base : Nat) (fd : Int) (negative : Bool) (b : Buffer) :
    render c base fd 0 negative b =
      displayOf (segmentsFor c 0) (if negative then 0x40#8 else 0#8) 0 0 := by
  have hglyph : glyph c 0 false = segmentsFor c 0 := BitVec.or_zero
  rw [render, renderDigits, if_pos rfl, writeDigit, writeRaw_four, setWidth_glyph, hglyph]
  cases negative <;> rfl

/-- Rendering leaves the numeral's display from every buffer (R85 to R91, R99, R101). -/
theorem render_eq_numeralBuffer (c : Config) {base : Nat} (dv : Nat) (fd : Int) (negative : Bool)
    (b : Buffer) (hbase : 0 < base) :
    render c base fd dv negative b = numeralBuffer c base fd dv negative := by
  by_cases hdv : dv = 0
  · rw [hdv, render_zero, numeralBuffer, if_pos rfl, displayOf]
  · rw [render_of_ne_zero c fd negative b hbase hdv, numeralBuffer, if_neg hdv, displayOf]

/-- Settles O28: the digits of `dv` in turn, then the sign and the blanks. -/
theorem renderLaysOutNumeral : Obligations.RenderLaysOutNumeral := by
  intro c base dv fd negative b hlow _ _ _
  exact render_eq_numeralBuffer c dv fd negative b (by omega)

end Sys2Proof.Machine
end

section
/-!
PROOFS. The reduction loop in any numeric domain (R79, R80, R83, 43_formatter.md): its result is the first pass
whose integer is below the limit, or the last pass allowed.
-/
namespace Sys2Proof.Machine

section
variable {N : Type} (D : NumOps N) (value : N) (base limit : Nat)

/-- The working values before the first pass (R79, R80). -/
def reductionStart (fd0 : Nat) : Working N :=
  ⟨fd0, scaleOf D base fd0, D.round (D.mul value (scaleOf D base fd0))⟩

/-- The working values after `k` passes (R83). -/
def reductionPass (fd0 k : Nat) : Working N :=
  (reducePass D value base)^[k] (reductionStart D value base fd0)

/-- `scale` is 1 multiplied `fd0` times by the base (R79). -/
theorem scaleOf_eq_iterate (fd0 : Nat) :
    scaleOf D base fd0 = (fun x => D.mul x (D.ofInt base))^[fd0] (D.ofInt 1) := by
  induction fd0 with
  | zero => rfl
  | succ k ih => rw [scaleOf, ih, Function.iterate_succ_apply']

/-- The loop is a number of passes: all of those allowed, or up to the first integer below the limit. -/
theorem exists_reduceLoop_eq_iterate (passes : Nat) (w : Working N) :
    ∃ k ≤ passes, reduceLoop D value base limit passes w = (reducePass D value base)^[k] w ∧
      (∀ j < k, ((reducePass D value base)^[j] w).dv.reaches limit = true) ∧
      (k < passes → ((reducePass D value base)^[k] w).dv.reaches limit = false) := by
  induction passes generalizing w with
  | zero => exact ⟨0, le_rfl, rfl, fun _ hj => absurd hj (Nat.not_lt_zero _), fun h => absurd h (lt_irrefl 0)⟩
  | succ n ih =>
    cases hreach : w.dv.reaches limit with
    | false =>
      exact ⟨0, Nat.zero_le _, by rw [reduceLoop, hreach]; rfl, fun _ hj => absurd hj (Nat.not_lt_zero _),
        fun _ => hreach⟩
    | true =>
      obtain ⟨k, hk, heq, hbefore, hend⟩ := ih (reducePass D value base w)
      refine ⟨k + 1, Nat.succ_le_succ hk, by rw [reduceLoop, hreach]; exact heq, fun j hj => ?_,
        fun h => hend (Nat.lt_of_succ_lt_succ h)⟩
      cases j with
      | zero => exact hreach
      | succ j => exact hbefore j (Nat.lt_of_succ_lt_succ hj)

/-- The reduction's result, pass by pass (R83). -/
theorem exists_reduced_eq_pass (fd0 : Nat) :
    ∃ k ≤ fd0 + 1025, reduced D value fd0 base limit = reductionPass D value base fd0 k ∧
      (∀ j < k, (reductionPass D value base fd0 j).dv.reaches limit = true) ∧
      (k < fd0 + 1025 → (reductionPass D value base fd0 k).dv.reaches limit = false) :=
  exists_reduceLoop_eq_iterate D value base limit (fd0 + 1025) (reductionStart D value base fd0)

@[simp] theorem reductionPass_zero (fd0 : Nat) :
    reductionPass D value base fd0 0 = reductionStart D value base fd0 := rfl

theorem reductionPass_succ (fd0 k : Nat) :
    reductionPass D value base fd0 (k + 1) = reducePass D value base (reductionPass D value base fd0 k) :=
  Function.iterate_succ_apply' ..

/-- Each pass takes one from `fd`. -/
theorem reductionPass_fd (fd0 k : Nat) : (reductionPass D value base fd0 k).fd = (fd0 : Int) - k := by
  induction k with
  | zero => simp [reductionStart]
  | succ k ih =>
    rw [reductionPass_succ, reducePass, ih]
    push_cast
    ring

/-- Each pass divides `scale` by the base. -/
theorem reductionPass_succ_scale (fd0 k : Nat) :
    (reductionPass D value base fd0 (k + 1)).scale = D.div (reductionPass D value base fd0 k).scale base := by
  rw [reductionPass_succ, reducePass]

/-- In every pass `dv` is the rounded product of the value with `scale` (R80). -/
theorem reductionPass_dv (fd0 k : Nat) :
    (reductionPass D value base fd0 k).dv = D.round (D.mul value (reductionPass D value base fd0 k).scale) := by
  cases k with
  | zero => rfl
  | succ k => rw [reductionPass_succ, reducePass]

end

/-- Settles O35: the loop's passes, with `scale` spelled out as the repeated product. -/
theorem reductionStopsAtFirstFit : Obligations.ReductionStopsAtFirstFit := by
  intro N D value fd0 base limit scale start pass
  obtain ⟨k, hk, heq, hbefore, hend⟩ := exists_reduced_eq_pass D value base limit fd0
  have hstart : reductionStart D value base fd0 = start := by
    rw [reductionStart, scaleOf_eq_iterate]
  have hpass (j : Nat) : reductionPass D value base fd0 j = pass^[j] start := hstart ▸ rfl
  refine ⟨k, hk, heq.trans (hpass k), heq ▸ reductionPass_fd D value base fd0 k, fun j hj => ?_, fun h => ?_⟩
  · rw [← hpass]; exact hbefore j hj
  · rw [heq]; exact hend h

end Sys2Proof.Machine
end

section
/-!
PROOFS. The buffer that FMT and FMTI leave (R84 to R95, 43_formatter.md): the error pattern or a numeral's
display, whatever stood in the buffer before.
-/
namespace Sys2Proof.Machine

/-! ### Steps 6 to 9 -/

section
variable {N : Type} {D : NumOps N} {c : Config} {base limit : Nat} {negative : Bool} {w : Working N}

/-- The error pattern when `scale < 1` (R84). -/
theorem finish_of_scale_lt (h : D.lt w.scale (D.ofInt 1) = true) (b : Buffer) :
    finish D c base limit negative w b = Buffer.errorPattern := by
  rw [finish, if_pos h, showError_eq, Buffer.errorPattern]

/-- The numeral of an integer below the limit otherwise (R85 to R90). -/
theorem finish_of_int_lt (hbase : 0 < base) (h : D.lt w.scale (D.ofInt 1) = false) {dv : Nat}
    (hdv : w.dv = .int dv) (hlimit : dv < limit) (b : Buffer) :
    finish D c base limit negative w b = numeralBuffer c base w.fd dv negative := by
  rw [finish, h, hdv]
  exact (if_pos hlimit).trans (render_eq_numeralBuffer c dv w.fd negative b hbase)

/-- The loop of R83 has ended exactly at an integer below the limit. -/
theorem DisplayValue.reaches_eq_false_iff {dv : DisplayValue} :
    dv.reaches limit = false ↔ ∃ n, dv = .int n ∧ n < limit := by
  cases dv with
  | int n => simp [DisplayValue.reaches]
  | _ => simp [DisplayValue.reaches]

/-- The arm of `finish` that no admitted command takes (log 10). -/
theorem finish_of_reaches (h : w.dv.reaches limit = true) (b : Buffer) :
    finish D c base limit negative w b = Buffer.errorPattern := by
  rw [finish]
  cases hdv : w.dv with
  | int dv =>
    have hlimit : ¬ dv < limit := by simpa [hdv, DisplayValue.reaches] using h
    simp only [if_neg hlimit]
    exact ite_self _
  | _ => exact ite_self _

/-- Steps 6 to 9 leave one of two displays, which the buffer before has no part in. -/
theorem finish_cases (hbase : 0 < base) :
    (∀ b, finish D c base limit negative w b = Buffer.errorPattern) ∨
      ∃ dv, w.dv = .int dv ∧ dv < limit ∧
        ∀ b, finish D c base limit negative w b = numeralBuffer c base w.fd dv negative := by
  cases hscale : D.lt w.scale (D.ofInt 1) with
  | true => exact .inl (finish_of_scale_lt hscale)
  | false =>
    cases hreach : w.dv.reaches limit with
    | true => exact .inl (finish_of_reaches hreach)
    | false =>
      obtain ⟨dv, hdv, hlt⟩ := DisplayValue.reaches_eq_false_iff.mp hreach
      exact .inr ⟨dv, hdv, hlt, finish_of_int_lt hbase hscale hdv hlt⟩

/-- Two configurations with one font lay out the same numeral. -/
theorem numeralBuffer_congr_font {c c' : Config} (h : c.font = c'.font) :
    numeralBuffer c = numeralBuffer c' := by
  have hseg : segmentsFor c = segmentsFor c' := by
    funext d
    rw [segmentsFor, segmentsFor, h]
  have hmask : numeralMask c = numeralMask c' := by
    funext base fd dv negative k
    rw [numeralMask, numeralMask, hseg]
  funext base fd dv negative
  rw [numeralBuffer, numeralBuffer, hseg, hmask]

/-- Of the configuration steps 6 to 9 use the font alone, and of the buffer before nothing (R95). -/
theorem finish_congr_font (hbase : 0 < base) {c' : Config} (h : c.font = c'.font) (b b' : Buffer) :
    finish D c base limit negative w b = finish D c' base limit negative w b' := by
  cases hscale : D.lt w.scale (D.ofInt 1) with
  | true => rw [finish_of_scale_lt hscale, finish_of_scale_lt hscale]
  | false =>
    cases hreach : w.dv.reaches limit with
    | true => rw [finish_of_reaches hreach, finish_of_reaches hreach]
    | false =>
      obtain ⟨dv, hdv, hlt⟩ := DisplayValue.reaches_eq_false_iff.mp hreach
      rw [finish_of_int_lt hbase hscale hdv hlt, finish_of_int_lt hbase hscale hdv hlt,
        numeralBuffer_congr_font h]

end

/-! ### The two displays -/

/-- A buffer that the formatter leaves: the error pattern or the display of a numeral. -/
def Buffer.IsFormatted (c : Config) (b : Buffer) : Prop :=
  b = Buffer.errorPattern ∨ ∃ base fd dv negative, b = numeralBuffer c base fd dv negative

/-- Every slot of a formatted buffer is written, slot 2 with 0 (R95). -/
theorem Buffer.IsFormatted.allWritten {c : Config} {b : Buffer} (h : b.IsFormatted c) :
    b.AllWritten ∧ b.slot2 = .written 0 := by
  obtain rfl | ⟨base, fd, dv, negative, rfl⟩ := h
  · decide
  · by_cases hdv : dv = 0 <;> simp [numeralBuffer, hdv, Buffer.AllWritten]

/-- Only the digit that `fd` digits stand behind shows a point (R86). -/
theorem numeralMask_point {c : Config} (hfont : c.FontOk) {base dv k : Nat} {fd : Int} {negative : Bool}
    (h : (numeralMask c base fd dv negative k).getLsbD 7 = true) : (k : Int) = fd := by
  have hseg (d : BitVec 4) : (segmentsFor c d).getLsbD 7 = false := hfont d.toFin
  by_contra hne
  simp only [numeralMask, hne, and_false, if_false, BitVec.or_zero] at h
  split_ifs at h
  · rw [hseg] at h; cases h
  · cases h
  · cases h

theorem points_numeralMask_le {c : Config} (hfont : c.FontOk) (base dv k : Nat) (fd : Int)
    (negative : Bool) :
    (Reg.written (numeralMask c base fd dv negative k)).points ≤ if (k : Int) = fd then 1 else 0 := by
  rw [Reg.points]
  split_ifs with hpoint hk
  · exact le_rfl
  · exact absurd (numeralMask_point hfont hpoint) hk
  · exact Nat.zero_le _
  · exact le_rfl

/-- A formatted buffer shows at most one point (R86). -/
theorem Buffer.IsFormatted.points_le {c : Config} (hfont : c.FontOk) {b : Buffer} (h : b.IsFormatted c) :
    b.points ≤ 1 := by
  obtain rfl | ⟨base, fd, dv, negative, rfl⟩ := h
  · decide
  · by_cases hdv : dv = 0
    · have hzero : (segmentsFor c 0#4)[7] = false := hfont _
      cases negative <;> simp [numeralBuffer, hdv, Buffer.points, Reg.points, hzero]
    · have hpoints (k : Nat) := points_numeralMask_le hfont base dv k fd negative
      have h0 := hpoints 0
      have h1 := hpoints 1
      have h2 := hpoints 2
      have h3 := hpoints 3
      simp only [numeralBuffer, if_neg hdv, Buffer.points]
      split_ifs at h0 h1 h2 h3 <;> omega

/-! ### The two commands -/

section
variable {base : BitVec 8} (hbase : baseAdmitted base)
include hbase

theorem base_pos : 0 < base.toNat := by
  have := (baseAdmitted_iff.mp hbase).1
  omega

theorem formatValue_isFormatted {N : Type} (D : NumOps N) (c : Config) (x : N) (fd0 : Nat) (b : Buffer) :
    (formatValue D c x fd0 base.toNat b).IsFormatted c := by
  rw [formatValue]
  obtain h | ⟨dv, -, -, h⟩ := finish_cases (D := D) (c := c)
    (limit := limitOf base.toNat (isNegative D x)) (negative := isNegative D x)
    (w := reduced D (magnitude D x) fd0 base.toNat (limitOf base.toNat (isNegative D x))) (base_pos hbase)
  · exact .inl (h b)
  · exact .inr ⟨_, _, _, _, h b⟩

theorem formatBits_isFormatted {N : Type} (D : NumOps N) (c : Config) (data : DataWord) (fd0 : Nat)
    (b : Buffer) : (formatBits D c data fd0 base.toNat b).IsFormatted c := by
  rw [formatBits]
  split
  · exact .inl (showError_eq b)
  · exact formatValue_isFormatted hbase D c _ fd0 b

variable (c : Config) (value : DataWord) (fd : BitVec 8)

theorem fmtBuffer_isFormatted (b : Buffer) : (fmtBuffer c value fd base b).IsFormatted c := by
  rw [fmtBuffer]
  split <;> exact formatBits_isFormatted hbase _ c value _ b

theorem fmtiBuffer_isFormatted (b : Buffer) : (fmtiBuffer c value fd base b).IsFormatted c := by
  rw [fmtiBuffer]
  split <;> exact formatValue_isFormatted hbase _ c _ _ b

section
variable {c} {c' : Config} (hfont : c.font = c'.font) (hnum : c.num = c'.num) (b b' : Buffer)
include hfont

theorem formatValue_congr_font {N : Type} (D : NumOps N) (x : N) (fd0 : Nat) :
    formatValue D c x fd0 base.toNat b = formatValue D c' x fd0 base.toNat b' :=
  finish_congr_font (base_pos hbase) hfont b b'

theorem formatBits_congr_font {N : Type} (D : NumOps N) (fd0 : Nat) :
    formatBits D c value fd0 base.toNat b = formatBits D c' value fd0 base.toNat b' := by
  rw [formatBits, formatBits]
  split
  · rfl
  · exact formatValue_congr_font hbase hfont b b' D _ fd0

include hnum

theorem fmtBuffer_congr : fmtBuffer c value fd base b = fmtBuffer c' value fd base b' := by
  rw [fmtBuffer, fmtBuffer, hnum]
  split <;> exact formatBits_congr_font hbase value hfont b b' _ _

theorem fmtiBuffer_congr : fmtiBuffer c value fd base b = fmtiBuffer c' value fd base b' := by
  rw [fmtiBuffer, fmtiBuffer, hnum]
  split <;> exact formatValue_congr_font hbase hfont b b' _ _ _

end

theorem exec_fmti_of_admitted (s : State) :
    exec (.fmti value fd base) s =
      .next ((s.withSlot (fmtiBuffer s.config value fd base s.slot)).respond 0) :=
  if_pos hbase

end

/-- Settles O23: the words decode by the encoding, and the buffer is a formatted one. -/
theorem formatWritesEverySlot : Obligations.FormatWritesEverySlot := by
  intro value fd base hlow hhigh
  have hbase : baseAdmitted base := baseAdmitted_iff.mpr ⟨hlow, hhigh⟩
  exact ⟨decode_encodeCmd_fmt hbase value fd, decode_encodeCmd_fmti hbase value fd, fun s =>
    ⟨⟨_, exec_fmt_of_admitted hbase value fd s, (fmtBuffer_isFormatted hbase _ value fd _).allWritten⟩,
      _, exec_fmti_of_admitted hbase value fd s, (fmtiBuffer_isFormatted hbase _ value fd _).allWritten⟩⟩

/-- Settles O24: the font and the domain are all that the buffer depends on beside the operands. -/
theorem formatIgnoresPriorBuffer : Obligations.FormatIgnoresPriorBuffer := by
  intro value fd base s s' t t' hfont hnum hlow hhigh
  have hbase : baseAdmitted base := baseAdmitted_iff.mpr ⟨hlow, hhigh⟩
  rw [exec_fmt_of_admitted hbase, exec_fmt_of_admitted hbase, exec_fmti_of_admitted hbase,
    exec_fmti_of_admitted hbase]
  refine ⟨?fmt, ?fmti⟩ <;> rintro ⟨⟩ ⟨⟩
  case fmt => exact fmtBuffer_congr hbase value fd hfont hnum _ _
  case fmti => exact fmtiBuffer_congr hbase value fd hfont hnum _ _

/-- Settles O25: the meaning's own check of the base (log 12). -/
theorem formatRefusesBadBase : Obligations.FormatRefusesBadBase := by
  intro value fd base s hbad
  have hbase : ¬ baseAdmitted base := baseAdmitted_iff.not.mpr hbad
  exact ⟨if_neg hbase, if_neg hbase⟩

/-- Settles O33: either command leaves a formatted buffer, which shows at most one point. -/
theorem atMostOneDecimalPoint : Obligations.AtMostOneDecimalPoint := by
  intro value fd base s t hfont hlow hhigh h
  have hbase : baseAdmitted base := baseAdmitted_iff.mpr ⟨hlow, hhigh⟩
  rw [exec_fmt_of_admitted hbase, exec_fmti_of_admitted hbase] at h
  rcases h with h | h <;> cases h
  · exact (fmtBuffer_isFormatted hbase s.config value fd s.slot).points_le hfont
  · exact (fmtiBuffer_isFormatted hbase s.config value fd s.slot).points_le hfont

end Sys2Proof.Machine
end

section
/-! PROOFS. The stream writer's sequences (R71 to R75, 42_stream.md), from the cases of WCHR. -/
namespace Sys2Proof.Machine

variable {s t : State}

theorem exec_rcur (s : State) : exec .rcur s = .next ((s.withCursor 0).respond 0) := rfl

/-- WCHR ends a line, records its fault on an unwritten cursor, or moves a written cursor on, after a digit
that it writes there (R72). -/
theorem exec_wchr_cases {c : BitVec 8} (h : exec (.wchr c) s = .next t) :
    (charClass c = .lineEnd ∧ t = (s.withCursor 0).respond 0) ∨
      (charClass c ≠ .lineEnd ∧ s.cursor = .unwritten ∧ t = s.takeFault .readUnwrittenCursor) ∨
      ∃ cur, s.cursor = .written cur ∧
        ((∃ d, charClass c = .digit d ∧
            t = ((s.withSlot (writeDigit s.config cur.toNat d false s.slot)).withCursor
              (advanceCursor cur)).respond 1) ∨
          (charClass c = .other ∧ t = (s.withCursor (advanceCursor cur)).respond 0)) := by
  by_cases hline : charClass c = .lineEnd
  · rw [exec_wchr_lineEnd hline] at h
    cases h
    exact .inl ⟨hline, rfl⟩
  · cases hcur : s.cursor with
    | unwritten =>
      rw [exec_wchr_unwritten hline hcur] at h
      cases h
      exact .inr (.inl ⟨hline, rfl, rfl⟩)
    | written cur =>
      refine .inr (.inr ⟨cur, rfl, ?_⟩)
      cases hclass : charClass c with
      | lineEnd => exact absurd hclass hline
      | digit d =>
        rw [exec_wchr_digit hclass hcur] at h
        cases h
        exact .inl ⟨d, rfl, rfl⟩
      | other =>
        rw [exec_wchr_other hclass hcur] at h
        cases h
        exact .inr ⟨rfl, rfl⟩

/-- Any character but a line end moves a written cursor on (R72). -/
theorem exec_wchr_cursor {c : BitVec 8} (hnl : c ≠ 0x0A) (hcr : c ≠ 0x0D) (h : exec (.wchr c) s = .next t)
    {cur : BitVec 3} (hcur : s.cursor = .written cur) : t.cursor = .written (advanceCursor cur) := by
  obtain ⟨hline, -⟩ | ⟨-, hunw, -⟩ | ⟨cur', hcur', ⟨d, -, rfl⟩ | ⟨-, rfl⟩⟩ := exec_wchr_cases h
  · exact absurd (charClass_eq_lineEnd_iff.mp hline) (not_or.mpr ⟨hnl, hcr⟩)
  · rw [hcur] at hunw; cases hunw
  · rw [hcur] at hcur'; cases hcur'; rfl
  · rw [hcur] at hcur'; cases hcur'; rfl

/-- Settles O21: the four digits by WCHR's transition at cursors 0, 1, 3 and 4, and the cursor's run by its
advance. -/
theorem fourDigitsFillTheNumericSlots : Obligations.FourDigitsFillTheNumericSlots := by
  obtain ⟨-, -, -, hdigit, -⟩ := wchrFollowsItsTransition
  refine ⟨fun d0 d1 d2 d3 s s1 s2 s3 s4 h0 h1 h2 h3 hcur e1 e2 e3 e4 => ?_, fun c s t hnl hcr h => ?_⟩
  · obtain ⟨at0, -⟩ := hdigit _ d0 s rfl h0
    rw [at0 hcur] at e1
    cases e1
    obtain ⟨-, at1, -⟩ := hdigit _ d1 _ rfl h1
    rw [at1 rfl] at e2
    cases e2
    obtain ⟨-, -, at3, -⟩ := hdigit _ d2 _ rfl h2
    rw [at3 rfl] at e3
    cases e3
    obtain ⟨-, -, -, at4, -⟩ := hdigit _ d3 _ rfl h3
    rw [at4 rfl] at e4
    cases e4
    exact ⟨rfl, rfl⟩
  · have hadvance {cur : BitVec 3} := exec_wchr_cursor hnl hcr h (cur := cur)
    exact ⟨hadvance, hadvance, hadvance, hadvance, hadvance⟩

/-- A legal cursor never points at the separator (R18). -/
theorem toNat_ne_two_of_cursorLegal {cur : BitVec 3} (h : (Reg.written cur).CursorLegal) :
    (cur.toNat : Int) ≠ 2 := by
  revert h cur; decide

/-- Settles O22: the one write of WCHR is at the cursor, which is not 2. -/
theorem streamNeverWritesSeparator : Obligations.StreamNeverWritesSeparator := by
  intro c s t hlegal h
  obtain ⟨-, rfl⟩ | ⟨-, -, rfl⟩ | ⟨cur, hcur, ⟨d, -, rfl⟩ | ⟨-, rfl⟩⟩ := exec_wchr_cases h
  · rfl
  · rfl
  · exact writeRaw_slot2_of_ne (toNat_ne_two_of_cursorLegal (hcur ▸ hlegal)) _ _
  · rfl

/-- Settles O20: RCUR and the line end are one transition of the cursor. -/
theorem rcurSetsCursorZero : Obligations.RcurSetsCursorZero :=
  ⟨decode_encodeCmd_rcur, fun s => ⟨exec_rcur s, exec_wchr_lineEnd (charClass_eq_lineEnd_iff.mpr (.inl rfl))⟩⟩

end Sys2Proof.Machine
end

section
/-! PROOFS. What every command can do to the state, once, and the invariants of the step that follow from it. -/
namespace Sys2Proof.Machine

variable {s t : State}

/-! ### Written slots stay written -/

/-- Every slot written in one buffer is written in the other (R17). -/
def Buffer.KeepsWritten (b b' : Buffer) : Prop :=
  (b.slot0 ≠ .unwritten → b'.slot0 ≠ .unwritten) ∧ (b.slot1 ≠ .unwritten → b'.slot1 ≠ .unwritten) ∧
    (b.slot2 ≠ .unwritten → b'.slot2 ≠ .unwritten) ∧ (b.slot3 ≠ .unwritten → b'.slot3 ≠ .unwritten) ∧
    (b.slot4 ≠ .unwritten → b'.slot4 ≠ .unwritten)

theorem Buffer.KeepsWritten.refl (b : Buffer) : b.KeepsWritten b := ⟨id, id, id, id, id⟩

theorem Buffer.AllWritten.keepsWritten {b' : Buffer} (h : b'.AllWritten) (b : Buffer) : b.KeepsWritten b' := by
  obtain ⟨h0, h1, h2, h3, h4⟩ := h
  exact ⟨fun _ => h0, fun _ => h1, fun _ => h2, fun _ => h3, fun _ => h4⟩

theorem Buffer.KeepsWritten.allWritten {b b' : Buffer} (h : b.KeepsWritten b') (hb : b.AllWritten) :
    b'.AllWritten := by
  obtain ⟨h0, h1, h2, h3, h4⟩ := h
  obtain ⟨w0, w1, w2, w3, w4⟩ := hb
  exact ⟨h0 w0, h1 w1, h2 w2, h3 w3, h4 w4⟩

/-- A raw write writes one slot or none (R64). -/
theorem keepsWritten_writeRaw (p : Int) (m : WideMask) (b : Buffer) : b.KeepsWritten (writeRaw p m b) := by
  unfold writeRaw
  split_ifs <;> simp [Buffer.KeepsWritten]

/-- CLEAR writes every slot (R66). -/
theorem clearSlots_allWritten (b : Buffer) : (clearSlots b).AllWritten := ⟨nofun, nofun, nofun, nofun, nofun⟩

/-! ### What a command can do -/

/-- A command that answers a next state writes slots and responds, or also sets the cursor to a legal value,
or records a fault on an unreadable state, or is ill-formed and refused. -/
theorem exec_cases {i : Instr} (h : exec i s = .next t) :
    (∃ b rsp, s.slot.KeepsWritten b ∧ t = (s.withSlot b).respond rsp) ∨
      (∃ b cur rsp, s.slot.KeepsWritten b ∧ (Reg.written cur).CursorLegal ∧
        t = ((s.withSlot b).withCursor cur).respond rsp) ∨
      (∃ r, ¬ s.Readable ∧ t = s.takeFault r) ∨
      (¬ i.wellFormed ∧ t = s.takeRefusal .badBase) := by
  cases i with
  | clear =>
    rw [exec_clear] at h
    cases h
    exact .inl ⟨_, _, (clearSlots_allWritten _).keepsWritten _, rfl⟩
  | wraw pos mask =>
    rw [exec_wraw] at h
    cases h
    exact .inl ⟨_, _, keepsWritten_writeRaw .., rfl⟩
  | wdig pos digit dp =>
    rw [exec_wdig] at h
    cases h
    exact .inl ⟨_, _, keepsWritten_writeRaw .., rfl⟩
  | wsep on =>
    rw [exec_wsep] at h
    cases h
    exact .inl ⟨_, _, keepsWritten_writeRaw .., rfl⟩
  | fmt value fd base =>
    obtain ⟨hbase, rfl⟩ | ⟨hbase, rfl⟩ := exec_fmt_cases h
    · exact .inl ⟨_, _, (fmtBuffer_isFormatted hbase _ value fd _).allWritten.1.keepsWritten _, rfl⟩
    · exact .inr (.inr (.inr ⟨hbase, rfl⟩))
  | fmti value fd base =>
    obtain ⟨hbase, rfl⟩ | ⟨hbase, rfl⟩ := exec_fmti_cases h
    · exact .inl ⟨_, _, (fmtiBuffer_isFormatted hbase _ value fd _).allWritten.1.keepsWritten _, rfl⟩
    · exact .inr (.inr (.inr ⟨hbase, rfl⟩))
  | wchr c =>
    obtain ⟨-, rfl⟩ | ⟨-, hcur, rfl⟩ | ⟨cur, hcur, ⟨d, -, rfl⟩ | ⟨-, rfl⟩⟩ := exec_wchr_cases h
    · exact .inr (.inl ⟨s.slot, 0, 0, .refl _, by decide, rfl⟩)
    · exact .inr (.inr (.inl ⟨_, fun hread => hread.2 hcur, rfl⟩))
    · exact .inr (.inl ⟨_, _, _, keepsWritten_writeRaw .., advanceCursor_legal cur, rfl⟩)
    · exact .inr (.inl ⟨s.slot, _, _, .refl _, advanceCursor_legal cur, rfl⟩)
  | rcur =>
    rw [exec_rcur] at h
    cases h
    exact .inr (.inl ⟨s.slot, 0, 0, .refl _, by decide, rfl⟩)
  | rdbuf =>
    obtain ⟨rsp, -, rfl⟩ | ⟨hpack, rfl⟩ := exec_rdbuf_cases h
    · exact .inl ⟨s.slot, rsp, .refl _, rfl⟩
    · refine .inr (.inr (.inl ⟨_, fun hread => ?_, rfl⟩))
      have hsome := (packSlots_isSome_iff s.slot).mpr hread.1
      rw [hpack] at hsome
      cases hsome

/-- The same of a step: it changes no slot and no cursor, or writes slots and responds, or also sets the
cursor, or records a fault on an unreadable state. -/
theorem step_effect_cases (h : step s = .next t) :
    (t.slot = s.slot ∧ t.cursor = s.cursor ∧ t.config = s.config ∧ t.fault = s.fault) ∨
      (∃ b rsp, s.slot.KeepsWritten b ∧ t = (s.taken.withSlot b).respond rsp) ∨
      (∃ b cur rsp, s.slot.KeepsWritten b ∧ (Reg.written cur).CursorLegal ∧
        t = ((s.taken.withSlot b).withCursor cur).respond rsp) ∨
      ∃ r, ¬ s.Readable ∧ t = s.taken.takeFault r := by
  obtain ⟨-, ⟨-, rfl⟩ | ⟨tr, rest, -, ⟨r, -, rfl⟩ | ⟨i, hdec, hexec⟩⟩⟩ := step_cases h
  · exact .inl ⟨rfl, rfl, rfl, rfl⟩
  · exact .inl ⟨rfl, rfl, rfl, rfl⟩
  · obtain hslot | hcursor | hfault | ⟨hill, -⟩ := exec_cases hexec
    · exact .inr (.inl hslot)
    · exact .inr (.inr (.inl hcursor))
    · exact .inr (.inr (.inr hfault))
    · obtain ⟨fm, -, -, -, hwf⟩ := decode_eq_ok_iff.mp hdec
      exact absurd hwf hill

/-- Settles O48: a step leaves the cursor or sets a legal one, and leaves the font. -/
theorem stepKeepsLegal : Obligations.StepKeepsLegal := by
  intro s t ⟨hcursor, hfont⟩ h
  obtain ⟨-, hcur, hconf, -⟩ | ⟨b, rsp, -, rfl⟩ | ⟨b, cur, rsp, -, hlegal, rfl⟩ | ⟨r, -, rfl⟩ :=
    step_effect_cases h
  · exact ⟨hcur ▸ hcursor, hconf ▸ hfont⟩
  · exact ⟨hcursor, hfont⟩
  · exact ⟨hlegal, hfont⟩
  · exact ⟨hcursor, hfont⟩

/-- Settles O49: at reset the cursor is unwritten, and the font is FONT_STD. -/
theorem resetIsLegal : Obligations.ResetIsLegal := ⟨.inl rfl, by decide⟩

/-- The slots and the cursor that a step leaves written, and the fault it records only on an unreadable
state. -/
theorem step_keeps_written (h : step s = .next t) :
    s.slot.KeepsWritten t.slot ∧ (s.cursor ≠ .unwritten → t.cursor ≠ .unwritten) ∧
      (s.Readable → t.fault = s.fault) := by
  obtain ⟨hslot, hcur, -, hfault⟩ | ⟨b, rsp, hkeep, rfl⟩ | ⟨b, cur, rsp, hkeep, -, rfl⟩ |
    ⟨r, hunread, rfl⟩ := step_effect_cases h
  · exact ⟨hslot ▸ .refl _, hcur ▸ id, fun _ => hfault⟩
  · exact ⟨hkeep, id, fun _ => rfl⟩
  · exact ⟨hkeep, fun _ => nofun, fun _ => rfl⟩
  · exact ⟨.refl _, id, fun hread => absurd hread hunread⟩

/-- Settles O57: by what a step leaves written, slot by slot. -/
theorem stepKeepsReadable : Obligations.StepKeepsReadable := by
  intro s t h
  obtain ⟨hslots, hcursor, hfault⟩ := step_keeps_written h
  have hall := hslots.allWritten
  obtain ⟨h0, h1, h2, h3, h4⟩ := hslots
  exact ⟨fun hread => ⟨⟨hall hread.1, hcursor hread.2⟩, hfault hread⟩, h0, h1, h2, h3, h4, hcursor⟩

/-- Settles O50: none of a step's updates reaches the configuration. -/
theorem stepKeepsConfiguration : Obligations.StepKeepsConfiguration := by
  intro s t h
  obtain ⟨-, -, hconf, -⟩ | ⟨b, rsp, -, rfl⟩ | ⟨b, cur, rsp, -, -, rfl⟩ | ⟨r, -, rfl⟩ := step_effect_cases h
  · exact hconf
  all_goals rfl

/-- Settles O51: the marks are left, or a fault is appended, or the refused mark set. -/
theorem marksAreNeverCleared : Obligations.MarksAreNeverCleared := by
  intro i s t h
  obtain ⟨b, rsp, -, rfl⟩ | ⟨b, cur, rsp, -, -, rfl⟩ | ⟨r, -, rfl⟩ | ⟨-, rfl⟩ := exec_cases h
  · exact ⟨id, List.prefix_rfl⟩
  · exact ⟨id, List.prefix_rfl⟩
  · exact ⟨id, List.prefix_append s.fault [r]⟩
  · exact ⟨fun _ => rfl, List.prefix_rfl⟩

/-- Settles O52: a step that writes a slot or the cursor leaves the marks of the state it started from, which
carried none. -/
theorem markingStepChangesNoSlotNoCursor : Obligations.MarkingStepChangesNoSlotNoCursor := by
  intro s t h hmarked
  obtain ⟨hunmarked, -⟩ := step_cases h
  obtain ⟨hslot, hcur, -, -⟩ | ⟨b, rsp, -, rfl⟩ | ⟨b, cur, rsp, -, -, rfl⟩ | ⟨r, -, rfl⟩ :=
    step_effect_cases h
  · exact ⟨hslot, hcur⟩
  · exact absurd hunmarked hmarked
  · exact absurd hunmarked hmarked
  · exact ⟨rfl, rfl⟩

end Sys2Proof.Machine
end

section
/-! PROOFS. Commands that complete, and that may be repeated (R33, 20_memory.md; R109, R122). -/
namespace Sys2Proof.Machine

variable {s t : State}

/-- WCHR completes on a line end and on a written cursor (R72). -/
theorem exec_wchr_completes {c : BitVec 8} (h : charClass c = .lineEnd ∨ s.cursor ≠ .unwritten) :
    ∃ t rsp, exec (.wchr c) s = .next t ∧ t.reply = .word rsp ∧ t.fault = s.fault ∧ t.refused = s.refused := by
  cases hclass : charClass c with
  | lineEnd => exact ⟨_, _, exec_wchr_lineEnd hclass, rfl, rfl, rfl⟩
  | digit d =>
    cases hcur : s.cursor with
    | unwritten => simp [hclass, hcur] at h
    | written cur => exact ⟨_, _, exec_wchr_digit hclass hcur, rfl, rfl, rfl⟩
  | other =>
    cases hcur : s.cursor with
    | unwritten => simp [hclass, hcur] at h
    | written cur => exact ⟨_, _, exec_wchr_other hclass hcur, rfl, rfl, rfl⟩

/-- RDBUF completes on written slots (R70). -/
theorem exec_rdbuf_completes (h : s.slot.AllWritten) : ∃ rsp, exec .rdbuf s = .next (s.respond rsp) := by
  obtain ⟨rsp, hpack⟩ := Option.isSome_iff_exists.mp ((packSlots_isSome_iff s.slot).mpr h)
  exact ⟨rsp, exec_rdbuf_of_some hpack⟩

/-- Settles O53: command by command. -/
theorem commandsComplete : Obligations.CommandsComplete := by
  intro i s hwf hread hcursor
  cases i with
  | clear => exact ⟨_, 0, exec_clear s, rfl, rfl, rfl, fun _ _ => rfl⟩
  | wraw pos mask => exact ⟨_, 0, exec_wraw pos mask s, rfl, rfl, rfl, fun _ _ => rfl⟩
  | wdig pos digit dp => exact ⟨_, 0, exec_wdig pos digit dp s, rfl, rfl, rfl, fun _ _ => rfl⟩
  | wsep on => exact ⟨_, 0, exec_wsep on s, rfl, rfl, rfl, fun _ _ => rfl⟩
  | fmt value fd base => exact ⟨_, 0, exec_fmt_of_admitted hwf value fd s, rfl, rfl, rfl, fun _ _ => rfl⟩
  | fmti value fd base => exact ⟨_, 0, exec_fmti_of_admitted hwf value fd s, rfl, rfl, rfl, fun _ _ => rfl⟩
  | wchr c =>
    have hdone : charClass c = .lineEnd ∨ s.cursor ≠ .unwritten := by
      rw [charClass_eq_lineEnd_iff, or_assoc]
      exact hcursor c rfl
    obtain ⟨t, rsp, hexec, hreply, hfault, hrefused⟩ := exec_wchr_completes hdone
    exact ⟨t, rsp, hexec, hreply, hfault, hrefused, fun _ hne => absurd rfl (hne c)⟩
  | rcur => exact ⟨_, 0, exec_rcur s, rfl, rfl, rfl, fun _ _ => rfl⟩
  | rdbuf =>
    obtain ⟨rsp, hexec⟩ := exec_rdbuf_completes (hread rfl)
    exact ⟨_, rsp, hexec, rfl, rfl, rfl, fun hne => absurd rfl hne⟩

/-- A raw write twice is that write once (R64). -/
theorem writeRaw_writeRaw (p : Int) (m : WideMask) (b : Buffer) :
    writeRaw p m (writeRaw p m b) = writeRaw p m b := by
  unfold writeRaw
  split_ifs <;> rfl

/-- Settles O55: each command's writes are the same on the state it leaves, and a formatted buffer does not
depend on the one before. -/
theorem commandsIdempotent : Obligations.CommandsIdempotent := by
  intro i s t hwf hwchr hread h
  cases i with
  | clear => rw [exec_clear] at h ⊢; cases h; rfl
  | wraw pos mask =>
    rw [exec_wraw] at h ⊢
    cases h
    simp only [State.respond_slot, State.withSlot_slot, writeRaw_writeRaw]
    rfl
  | wdig pos digit dp =>
    rw [exec_wdig] at h ⊢
    cases h
    simp only [writeDigit, State.respond_slot, State.respond_config, State.withSlot_slot, State.withSlot_config,
      writeRaw_writeRaw]
    rfl
  | wsep on => rw [exec_wsep] at h ⊢; cases h; rfl
  | fmt value fd base =>
    rw [exec_fmt_of_admitted hwf] at h ⊢
    cases h
    rw [fmtBuffer_congr hwf value fd rfl rfl _ s.slot]
    rfl
  | fmti value fd base =>
    rw [exec_fmti_of_admitted hwf] at h ⊢
    cases h
    rw [fmtiBuffer_congr hwf value fd rfl rfl _ s.slot]
    rfl
  | wchr c => exact absurd rfl (hwchr c)
  | rcur => rw [exec_rcur] at h ⊢; cases h; rfl
  | rdbuf =>
    obtain ⟨rsp, hpack⟩ := Option.isSome_iff_exists.mp ((packSlots_isSome_iff s.slot).mpr (hread rfl))
    rw [exec_rdbuf_of_some hpack] at h
    cases h
    exact exec_rdbuf_of_some (s := s.respond rsp) hpack

/-- Settles O56: CLEAR writes every slot and RCUR the cursor, and on such a state both readers complete. -/
theorem bootMakesEverythingReadable : Obligations.BootMakesEverythingReadable := by
  intro s t u hclear hrcur
  rw [exec_clear] at hclear
  cases hclear
  rw [exec_rcur] at hrcur
  cases hrcur
  refine ⟨clearSlots_allWritten _, rfl, rfl, ?rdbuf, fun c => ?wchr⟩
  case rdbuf => exact ⟨_, exec_rdbuf_of_some rfl, rfl⟩
  case wchr =>
    obtain ⟨v, -, hexec, -, hfault, -⟩ := exec_wchr_completes (c := c)
      (s := (((s.withSlot (clearSlots s.slot)).respond 0).withCursor 0).respond 0) (.inr nofun)
    exact ⟨v, hexec, hfault⟩

end Sys2Proof.Machine
end

section
/-! PROOFS. The step itself (R35, R53, R106, R121), and facts of the fixed tables and texts. -/
namespace Sys2Proof.Machine

variable {s : State}

theorem stop?_of_unmarked (h : s.Unmarked) : s.stop? = none := by
  simp [State.stop?, h.1, h.2]

/-- The transaction taken is the first one pending (R21). -/
theorem taken_of_pending {t : Transaction} {rest : List Transaction} (h : s.pending = t :: rest) :
    s.taken = { s with pending := rest, index := s.index + 1 } := by
  rw [State.taken, h, List.tail_cons]

/-- Settles O4: the decoder's answer on the presented transaction is a command. -/
theorem stepRunsDecodedCommand : Obligations.StepRunsDecodedCommand := by
  intro s t rest i hunmarked hpending hdec
  have hdecoded : t.decoded = .ok i := hdec
  rw [← taken_of_pending hpending]
  simp only [step, stop?_of_unmarked hunmarked, State.presented, hpending, List.head?_cons, hdecoded]

/-- Settles O5: the decoder's answer on the presented transaction is a refusal. -/
theorem stepRefusesUndecodableWord : Obligations.StepRefusesUndecodableWord := by
  intro s t rest r hunmarked hpending hdec
  have hdecoded : t.decoded = .error r := hdec
  have hstep : step s = .next (s.taken.takeRefusal r) := by
    simp only [step, stop?_of_unmarked hunmarked, State.presented, hpending, List.head?_cons, hdecoded]
  rw [hstep, taken_of_pending hpending, State.takeRefusal]

/-- Settles O6: with nothing pending, nothing is presented. -/
theorem stepWaitsForCommand : Obligations.StepWaitsForCommand := by
  intro s hunmarked hpending
  simp only [step, stop?_of_unmarked hunmarked, State.presented, hpending, List.head?_nil]

/-- Settles O7: a step that answers a next state started from an unmarked one. -/
theorem markedStateHasNoNext : Obligations.MarkedStateHasNoNext := by
  intro s hmarked t h
  obtain ⟨hunmarked, -⟩ := step_cases h
  exact hmarked hunmarked

/-- Settles O2: the sixteen entries of FONT_STD, evaluated. -/
theorem standardFontEntriesDistinct : Obligations.StandardFontEntriesDistinct := by
  unfold Obligations.StandardFontEntriesDistinct
  decide

/-- Settles O60: the five lines, evaluated; the decimal literal needs the binary64 rounding. -/
theorem exampleLinesAssemble : Obligations.ExampleLinesAssemble := by
  unfold Obligations.ExampleLinesAssemble
  decide +kernel

end Sys2Proof.Machine
end

section
/-!
PROOFS. The rounding of BINARY64 (R11, 00_scope.md; log 8) on whole units: the integer nearest to a quotient,
the rounding step at 53 significant bits, and from them the nearest binary64 magnitude with the threshold of
overflow.
-/
namespace Sys2Proof.Machine

/-! ### The integer nearest to a quotient -/

section
variable {n d : Nat}

theorem distance_div (n d : Nat) : distance n d (n / d) = n % d := by
  have hdiv : ((n / d : Nat) : Int) * d + (n % d : Nat) = n := by exact_mod_cast Nat.div_add_mod' n d
  rw [distance]
  omega

theorem distance_div_succ (hd : 0 < d) : distance n d (n / d + 1) = d - n % d := by
  have hdiv : ((n / d : Nat) : Int) * d + (n % d : Nat) = n := by exact_mod_cast Nat.div_add_mod' n d
  have hmod : n % d < d := Nat.mod_lt n hd
  rw [distance, Nat.cast_succ, add_mul, one_mul]
  omega

/-- The nearest integer is off by half at most, and by half only when it is even. -/
theorem divNearestEven_spec (hd : 0 < d) :
    2 * distance n d (divNearestEven n d) ≤ d ∧
      (2 * distance n d (divNearestEven n d) = d → divNearestEven n d % 2 = 0) := by
  have hmod : n % d < d := Nat.mod_lt n hd
  have hfloor := distance_div n d
  have hceil := distance_div_succ (n := n) hd
  simp only [divNearestEven]
  split_ifs with hlow hhigh
  · rw [hfloor]; omega
  · rw [hceil]; omega
  · rcases Nat.mod_two_eq_zero_or_one (n / d) with heven | hodd
    · rw [heven, add_zero, hfloor]; omega
    · rw [hodd, hceil]; omega

/-- Two integers are at least as far apart as the denominator says. -/
theorem le_distance_add_distance {k m : Nat} (h : k ≠ m) : d ≤ distance n d k + distance n d m := by
  have hstep : (d : Int) ≤ |(k * d : Int) - m * d| := by
    have h1 : (1 : Int) ≤ |(k : Int) - m| := Int.one_le_abs (sub_ne_zero.mpr (by exact_mod_cast h))
    calc (d : Int) = 1 * d := (one_mul _).symm
      _ ≤ |(k : Int) - m| * |(d : Int)| := by
        rw [Nat.abs_cast]; exact Int.mul_le_mul_of_nonneg_right h1 (Int.natCast_nonneg d)
      _ = |(k * d : Int) - m * d| := by rw [← abs_mul, sub_mul]
  rw [Int.abs_eq_natAbs] at hstep
  simp only [distance]
  omega

/-- No integer is nearer, and an integer as near only when the rounding is even. -/
theorem divNearestEven_nearest (hd : 0 < d) (k : Nat) :
    distance n d (divNearestEven n d) ≤ distance n d k ∧
      (distance n d (divNearestEven n d) = distance n d k → k ≠ divNearestEven n d →
        divNearestEven n d % 2 = 0) := by
  obtain ⟨hhalf, heven⟩ := divNearestEven_spec (n := n) hd
  by_cases hk : k = divNearestEven n d
  · subst hk
    exact ⟨le_rfl, fun _ h => absurd rfl h⟩
  · have hapart := le_distance_add_distance (n := n) (d := d) hk
    exact ⟨by omega, fun h _ => heven (by omega)⟩

end

/-! ### The rounding step -/

/-- The exponent of the rounding step for `n / d` units: 53 significant bits are kept, and never less than
one unit. -/
def roundStep (n d : Nat) : Nat := (n / d).log2 - 52

/-- `n / d` units in steps, rounded to a whole number of them. -/
def roundSteps (n d : Nat) : Nat := divNearestEven n (d * 2 ^ roundStep n d)

/-- The units `n / d` rounds to, overflow aside. -/
def roundUnits (n d : Nat) : Nat := roundSteps n d * 2 ^ roundStep n d

theorem F64.round_eq_roundUnits (neg : Bool) (n d : Nat) :
    F64.round neg n d = if roundUnits n d < 2 ^ 2098 then .fin neg (roundUnits n d) else .inf neg :=
  F64.round_eq neg n d

section
variable {n d : Nat}

theorem distance_mul_pow (n d m e : Nat) : distance n d (m * 2 ^ e) = distance n (d * 2 ^ e) m := by
  rw [distance, distance]
  push_cast
  ring_nf

variable (hd : 0 < d)
include hd

/-- A step holds a quotient of less than 53 bits of steps. -/
theorem lt_roundStep : n < 2 ^ 53 * (d * 2 ^ roundStep n d) := by
  have hpow : n / d < 2 ^ (53 + roundStep n d) :=
    Nat.lt_log2_self.trans_le (Nat.pow_le_pow_right (by decide) (by rw [roundStep]; omega))
  calc n < 2 ^ (53 + roundStep n d) * d := (Nat.div_lt_iff_lt_mul hd).mp hpow
    _ = 2 ^ 53 * (d * 2 ^ roundStep n d) := by rw [pow_add]; ring

/-- A step of more than one unit holds a quotient of 53 bits of steps. -/
theorem roundStep_le (he : roundStep n d ≠ 0) : 2 ^ 52 * (d * 2 ^ roundStep n d) ≤ n := by
  have hlog : (n / d).log2 = 52 + roundStep n d := by rw [roundStep] at he ⊢; omega
  have hne : n / d ≠ 0 := by
    intro h0
    rw [h0, Nat.log2_zero] at hlog
    omega
  calc 2 ^ 52 * (d * 2 ^ roundStep n d) = 2 ^ (52 + roundStep n d) * d := by rw [pow_add]; ring
    _ ≤ n := (Nat.le_div_iff_mul_le hd).mp (hlog ▸ Nat.log2_self_le hne)

theorem step_pos : 0 < d * 2 ^ roundStep n d := Nat.mul_pos hd (Nat.two_pow_pos _)

/-- The rounded number of steps against the quotient, in both directions. -/
theorem roundSteps_bounds :
    2 * (roundSteps n d * (d * 2 ^ roundStep n d)) ≤ 2 * n + d * 2 ^ roundStep n d ∧
      2 * n ≤ 2 * (roundSteps n d * (d * 2 ^ roundStep n d)) + d * 2 ^ roundStep n d := by
  have hhalf := (divNearestEven_spec (n := n) (step_pos (n := n) hd)).1
  rw [← roundSteps, distance] at hhalf
  have hcast : ((roundSteps n d * (d * 2 ^ roundStep n d) : Nat) : Int) =
      (roundSteps n d : Int) * (d * 2 ^ roundStep n d : Nat) := Nat.cast_mul ..
  omega

/-- 53 bits of steps are kept, or one more than their greatest number. -/
theorem roundSteps_le : roundSteps n d ≤ 2 ^ 53 := by
  by_contra hgt
  have hmul : (2 ^ 53 + 1) * (d * 2 ^ roundStep n d) ≤ roundSteps n d * (d * 2 ^ roundStep n d) :=
    Nat.mul_le_mul_right _ (not_le.mp hgt)
  have hlow := (roundSteps_bounds (n := n) hd).1
  have hlt := lt_roundStep (n := n) hd
  have hpos := step_pos (n := n) hd
  rw [add_mul, one_mul] at hmul
  omega

/-- With a step of more than one unit the leading bit is kept. -/
theorem le_roundSteps (he : roundStep n d ≠ 0) : 2 ^ 52 ≤ roundSteps n d := by
  by_contra hlt
  have hmul : (roundSteps n d + 1) * (d * 2 ^ roundStep n d) ≤ 2 ^ 52 * (d * 2 ^ roundStep n d) :=
    Nat.mul_le_mul_right _ (not_le.mp hlt)
  have hhigh := (roundSteps_bounds (n := n) hd).2
  have hge := roundStep_le (n := n) hd he
  have hpos := step_pos (n := n) hd
  rw [add_mul, one_mul] at hmul
  omega

/-! ### The nearest magnitude -/

/-- The rounded units have at most 53 significant bits. -/
theorem roundUnits_significant : ∃ m e, m < 2 ^ 53 ∧ roundUnits n d = m * 2 ^ e := by
  rcases (roundSteps_le (n := n) hd).lt_or_eq with hlt | heq
  · exact ⟨_, _, hlt, rfl⟩
  · exact ⟨1, 53 + roundStep n d, by decide, by rw [roundUnits, heq, one_mul, pow_add]⟩

/-- The last significant bit of the rounded units is that of the number of steps. -/
theorem evenInLastPlace_roundUnits (heven : roundSteps n d % 2 = 0) : EvenInLastPlace (roundUnits n d) := by
  have hpow : 0 < 2 ^ roundStep n d := Nat.two_pow_pos _
  rw [EvenInLastPlace, roundUnits]
  by_cases hsmall : roundSteps n d < 2 ^ 52
  · have he : roundStep n d = 0 := by
      by_contra he
      exact absurd (le_roundSteps hd he) (not_le.mpr hsmall)
    have hlog : (roundSteps n d).log2 ≤ 52 := by
      rcases Nat.eq_zero_or_pos (roundSteps n d) with h0 | hpos
      · rw [h0, Nat.log2_zero]; omega
      · exact ((Nat.log2_lt hpos.ne').mpr hsmall).le
    rw [he, pow_zero, mul_one, Nat.sub_eq_zero_of_le hlog, pow_zero, Nat.div_one]
    exact heven
  · rcases (roundSteps_le (n := n) hd).lt_or_eq with hlt | heq
    · have hne : roundSteps n d * 2 ^ roundStep n d ≠ 0 := by
        have := Nat.mul_pos (show 0 < roundSteps n d by omega) hpow
        omega
      have hlog : (roundSteps n d * 2 ^ roundStep n d).log2 = 52 + roundStep n d := by
        rw [Nat.log2_eq_iff hne, pow_add, show 52 + roundStep n d + 1 = 53 + roundStep n d by omega, pow_add]
        exact ⟨Nat.mul_le_mul_right _ (not_lt.mp hsmall), Nat.mul_lt_mul_of_pos_right hlt hpow⟩
      rw [hlog, Nat.add_sub_cancel_left, Nat.mul_div_cancel _ hpow]
      exact heven
    · have hlog : (2 ^ 53 * 2 ^ roundStep n d).log2 = 53 + roundStep n d := by
        rw [← pow_add, Nat.log2_two_pow]
      rw [heq, hlog, show 53 + roundStep n d - 52 = 1 + roundStep n d by omega, pow_add,
        Nat.mul_div_mul_right _ _ hpow]
      decide

omit hd in
/-- A magnitude of 53 significant bits is a whole number of steps, or lies below the first bit of the
quotient. -/
theorem steps_or_below {m e : Nat} (hm : m < 2 ^ 53) :
    (∃ k, m * 2 ^ e = k * 2 ^ roundStep n d) ∨
      (roundStep n d ≠ 0 ∧ m * 2 ^ e < 2 ^ 52 * 2 ^ roundStep n d) := by
  rcases le_or_gt (roundStep n d) e with hle | hgt
  · exact .inl ⟨m * 2 ^ (e - roundStep n d), by rw [mul_assoc, ← pow_add, Nat.sub_add_cancel hle]⟩
  · refine .inr ⟨by omega, ?_⟩
    calc m * 2 ^ e < 2 ^ 53 * 2 ^ e := Nat.mul_lt_mul_of_pos_right hm (Nat.two_pow_pos e)
      _ = 2 ^ 52 * 2 ^ (e + 1) := by rw [pow_succ 2 e, pow_succ 2 52]; ring
      _ ≤ 2 ^ 52 * 2 ^ roundStep n d := Nat.mul_le_mul_left _ (Nat.pow_le_pow_right (by decide) hgt)

/-- No magnitude of 53 significant bits is nearer than the rounded units, and another as near only when they
are even in the last place. -/
theorem roundUnits_nearest {m e : Nat} (hm : m < 2 ^ 53) :
    distance n d (roundUnits n d) ≤ distance n d (m * 2 ^ e) ∧
      (distance n d (roundUnits n d) = distance n d (m * 2 ^ e) → m * 2 ^ e ≠ roundUnits n d →
        EvenInLastPlace (roundUnits n d)) := by
  have hsteps (k : Nat) := divNearestEven_nearest (n := n) (step_pos (n := n) hd) k
  rw [roundUnits, distance_mul_pow]
  rcases steps_or_below (n := n) (d := d) (e := e) hm with ⟨k, hk⟩ | ⟨he, hbelow⟩
  · rw [hk, distance_mul_pow]
    refine ⟨(hsteps k).1, fun heq hne => evenInLastPlace_roundUnits hd ((hsteps k).2 heq ?_)⟩
    rintro rfl
    exact hne rfl
  · have hfar : distance n (d * 2 ^ roundStep n d) (2 ^ 52) < distance n d (m * 2 ^ e) := by
      have hge := roundStep_le (n := n) hd he
      have hlt : m * 2 ^ e * d < 2 ^ 52 * (d * 2 ^ roundStep n d) :=
        calc m * 2 ^ e * d < 2 ^ 52 * 2 ^ roundStep n d * d := Nat.mul_lt_mul_of_pos_right hbelow hd
          _ = 2 ^ 52 * (d * 2 ^ roundStep n d) := by ring
      rw [distance, distance, ← Nat.cast_mul, ← Nat.cast_mul]
      omega
    have hnear := (hsteps (2 ^ 52)).1.trans_lt hfar
    exact ⟨hnear.le, fun heq => absurd heq hnear.ne⟩

/-! ### The threshold of overflow -/

omit hd in
/-- A number rounded to whole steps, to even at a half, stays below an even number of steps exactly when it is
half a step below it. -/
theorem lt_iff_of_nearest {step steps bound : Nat} (hstep : 0 < step) (heven : bound % 2 = 0)
    (hle : steps ≤ bound)
    (hbounds : 2 * (steps * step) ≤ 2 * n + step ∧ 2 * n ≤ 2 * (steps * step) + step)
    (htie : 2 * distance n step steps = step → steps % 2 = 0) :
    steps < bound ↔ 2 * n < (2 * bound - 1) * step := by
  obtain ⟨hlow, hhigh⟩ := hbounds
  have hbound : (2 * bound - 1) * step = 2 * (bound * step) - step := by
    rw [Nat.sub_mul, one_mul, mul_assoc]
  rcases hle.lt_or_eq with hlt | rfl
  · have hmul : (steps + 1) * step ≤ bound * step := Nat.mul_le_mul_right _ hlt
    rw [add_mul, one_mul] at hmul
    refine iff_of_true hlt ?_
    by_contra hn
    have hdist : 2 * distance n step steps = step := by
      rw [distance, ← Nat.cast_mul]
      omega
    have hsucc : steps + 1 = bound :=
      Nat.eq_of_mul_eq_mul_right hstep (by rw [add_mul, one_mul]; omega)
    have := htie hdist
    omega
  · refine iff_of_false (lt_irrefl _) ?_
    omega

/-- The rounded units stay below `2^(p + 54)` exactly when the quotient is below half a step from it. -/
theorem roundUnits_lt_iff (p : Nat) : roundUnits n d < 2 ^ (p + 54) ↔ n < (2 ^ 54 - 1) * 2 ^ p * d := by
  have hpow : 2 ^ (p + 54) = 2 ^ 53 * 2 ^ (p + 1) := by rw [pow_succ 2 p, pow_add]; ring
  have hlt := lt_roundStep (n := n) hd
  have hle := roundSteps_le (n := n) hd
  rcases Nat.lt_trichotomy (roundStep n d) (p + 1) with hstep | hstep | hstep
  · have hmono : 2 ^ roundStep n d ≤ 2 ^ p := Nat.pow_le_pow_right (by decide) (by omega)
    refine iff_of_true ?_ ?_
    · calc roundUnits n d ≤ 2 ^ 53 * 2 ^ p := Nat.mul_le_mul hle hmono
        _ < 2 ^ 53 * 2 ^ (p + 1) :=
          Nat.mul_lt_mul_of_pos_left (Nat.pow_lt_pow_right (by decide) (by omega)) (by decide)
        _ = 2 ^ (p + 54) := hpow.symm
    · calc n < 2 ^ 53 * (d * 2 ^ roundStep n d) := hlt
        _ ≤ 2 ^ 53 * (d * 2 ^ p) := Nat.mul_le_mul_left _ (Nat.mul_le_mul_left _ hmono)
        _ ≤ (2 ^ 54 - 1) * (d * 2 ^ p) := Nat.mul_le_mul_right _ (by decide)
        _ = (2 ^ 54 - 1) * 2 ^ p * d := by ring
  · have hbounds := roundSteps_bounds (n := n) hd
    have htie := (divNearestEven_spec (n := n) (step_pos (n := n) hd)).2
    rw [← roundSteps] at htie
    rw [hstep] at hbounds htie
    have hdouble : (2 * 2 ^ 53 - 1) * (d * 2 ^ (p + 1)) = 2 * ((2 ^ 54 - 1) * 2 ^ p * d) := by
      rw [show 2 * 2 ^ 53 - 1 = 2 ^ 54 - 1 from rfl, pow_succ]
      ring
    rw [roundUnits, hstep, hpow, Nat.mul_lt_mul_right (Nat.two_pow_pos _),
      lt_iff_of_nearest (Nat.mul_pos hd (Nat.two_pow_pos _)) (by decide) hle hbounds htie,
      hdouble, Nat.mul_lt_mul_left (by decide)]
  · have hge := roundStep_le (n := n) hd (by omega)
    have hmono : 2 ^ (p + 2) ≤ 2 ^ roundStep n d := Nat.pow_le_pow_right (by decide) (by omega)
    refine iff_of_false (not_lt.mpr ?_) (not_lt.mpr ?_)
    · calc 2 ^ (p + 54) = 2 ^ 52 * 2 ^ (p + 2) := by rw [hpow, pow_add 2 p, pow_add 2 p]; ring
        _ ≤ roundUnits n d := Nat.mul_le_mul (le_roundSteps hd (by omega)) hmono
    · calc (2 ^ 54 - 1) * 2 ^ p * d ≤ 2 ^ 54 * 2 ^ p * d := by gcongr; decide
        _ = 2 ^ 52 * (d * 2 ^ (p + 2)) := by rw [pow_add 2 p]; ring
        _ ≤ 2 ^ 52 * (d * 2 ^ roundStep n d) := by gcongr
        _ ≤ n := hge

end

end Sys2Proof.Machine
end

section
/-!
PROOFS. The binary64 numbers as rational numbers (R11, 00_scope.md; log 8): what a finite number's units are
worth, and `F64.round` as the rounding of an exact rational result.
-/
namespace Sys2Proof.Machine

/-! ### The value of units -/

theorem oneUnits_eq : oneUnits = 2 ^ 1074 := by rw [oneUnits, ← Nat.one_shiftLeft]

theorem oneUnits_pos : 0 < oneUnits := by
  rw [oneUnits_eq]
  positivity

theorem unitsValue_eq (u : Nat) : unitsValue u = u / (oneUnits : Rat) := by
  rw [unitsValue, oneUnits_eq, Nat.cast_pow, Nat.cast_ofNat]

theorem unitsValue_nonneg (u : Nat) : 0 ≤ unitsValue u := by
  rw [unitsValue_eq]; positivity

/-- The value of a finite number of the given sign and units. -/
def signedValue (neg : Bool) (u : Nat) : Rat := if neg then -unitsValue u else unitsValue u

theorem signedValue_eq (neg : Bool) (u : Nat) : signedValue neg u = signedUnits neg u / (oneUnits : Rat) := by
  cases neg with
  | false => exact (unitsValue_eq u).trans (by simp [signedUnits])
  | true => exact (congrArg Neg.neg (unitsValue_eq u)).trans (by simp [signedUnits, neg_div])

theorem F64.toRat?_fin (neg : Bool) (u : Nat) : (F64.fin neg u).toRat? = some (signedValue neg u) := by
  rw [F64.toRat?, signedValue_eq, Rat.mkRat_eq_div]

/-- The finite numbers are those with a value. -/
theorem F64.toRat?_eq_some_iff {a : F64} {x : Rat} :
    a.toRat? = some x ↔ ∃ neg u, a = .fin neg u ∧ signedValue neg u = x := by
  cases a with
  | nan => simp [F64.toRat?]
  | inf neg => simp [F64.toRat?]
  | fin neg u => simp [F64.toRat?_fin]

theorem abs_signedValue (neg : Bool) (u : Nat) : |signedValue neg u| = unitsValue u := by
  cases neg with
  | false => exact abs_of_nonneg (unitsValue_nonneg u)
  | true => exact (abs_neg _).trans (abs_of_nonneg (unitsValue_nonneg u))

/-- A value that is not zero shows its sign. -/
theorem sign_of_signedValue_ne_zero {neg : Bool} {u : Nat} (h : signedValue neg u ≠ 0) :
    neg = decide (signedValue neg u < 0) := by
  have hnonneg := unitsValue_nonneg u
  cases neg with
  | false => exact (decide_eq_false (not_lt.mpr hnonneg)).symm
  | true =>
    have hpos : 0 < unitsValue u := lt_of_le_of_ne hnonneg fun h0 => h (by simp [signedValue, ← h0])
    exact (decide_eq_true (neg_neg_of_pos hpos)).symm

/-! ### Rounding an exact result -/

section
variable {neg : Bool} {n d : Nat} {q : Rat}

/-- Half a step of 53 bits below the units of 2^1024: the least units that round to infinity. -/
def overflowLimit : Nat := (2 ^ 54 - 1) * 2 ^ 2044

theorem overflowBound_eq : overflowBound = overflowLimit / (oneUnits : Rat) := by
  have hne : (oneUnits : Rat) ≠ 0 := Nat.cast_ne_zero.mpr oneUnits_pos.ne'
  have hsplit : ((2 ^ 2044 : Nat) : Rat) = 2 ^ 970 * oneUnits := by
    rw [oneUnits_eq, Nat.cast_pow, Nat.cast_pow, Nat.cast_ofNat, ← pow_add]
  rw [overflowBound, overflowLimit, Nat.cast_mul, hsplit, ← mul_assoc, mul_div_cancel_right₀ _ hne]
  congr 1
  norm_num

theorem overflowBound_pos : 0 < overflowBound := by
  rw [overflowBound]
  positivity

theorem roundUnits_lt_overflow_iff (hd : 0 < d) : roundUnits n d < 2 ^ 2098 ↔ n < overflowLimit * d := by
  rw [overflowLimit]
  simpa only [Nat.reduceAdd] using roundUnits_lt_iff hd 2044

theorem lt_overflowBound_iff (hd : 0 < d) (hq : |q| = n / d / oneUnits) :
    |q| < overflowBound ↔ roundUnits n d < 2 ^ 2098 := by
  have hd' : (0 : Rat) < d := Nat.cast_pos.mpr hd
  have hone : (0 : Rat) < oneUnits := Nat.cast_pos.mpr oneUnits_pos
  rw [roundUnits_lt_overflow_iff hd, hq, overflowBound_eq, div_lt_div_iff_of_pos_right hone, div_lt_iff₀ hd',
    ← Nat.cast_mul, Nat.cast_lt]

theorem F64.round_of_lt (h : roundUnits n d < 2 ^ 2098) : F64.round neg n d = .fin neg (roundUnits n d) :=
  (F64.round_eq_roundUnits neg n d).trans (if_pos h)

theorem F64.round_of_not_lt (h : ¬ roundUnits n d < 2 ^ 2098) : F64.round neg n d = .inf neg :=
  (F64.round_eq_roundUnits neg n d).trans (if_neg h)

theorem representable_roundUnits (hd : 0 < d) (h : roundUnits n d < 2 ^ 2098) :
    Representable (roundUnits n d) := by
  obtain ⟨m, e, hm, hu⟩ := roundUnits_significant (n := n) hd
  exact ⟨m, e, hm, hu, h⟩

/-- How far units are from an exact result of `n / d` units. -/
theorem abs_unitsValue_sub (hd : 0 < d) (hq : |q| = n / d / oneUnits) (u : Nat) :
    abs (unitsValue u - |q|) = distance n d u / (d * oneUnits : Rat) := by
  have hd' : (0 : Rat) < d := Nat.cast_pos.mpr hd
  have hone : (0 : Rat) < oneUnits := Nat.cast_pos.mpr oneUnits_pos
  have hsub : unitsValue u - |q| = ((u * d - n : Int) : Rat) / (d * oneUnits) := by
    rw [unitsValue_eq, hq]
    push_cast
    field_simp
  rw [hsub, abs_div, abs_of_pos (mul_pos hd' hone), distance, Nat.cast_natAbs, Int.cast_abs]

/-- A result of known sign from the threshold on, on the side of its sign. -/
theorem overflowBound_le_of_sign (hge : overflowBound ≤ |q|) (hneg : neg = decide (q < 0)) :
    overflowBound ≤ if neg then -q else q := by
  rcases lt_or_ge q 0 with hlt | hnonneg
  · rw [hneg, if_pos (decide_eq_true hlt), ← abs_of_neg hlt]
    exact hge
  · rw [hneg, decide_eq_false (not_lt.mpr hnonneg), if_neg (by decide), ← abs_of_nonneg hnonneg]
    exact hge

/-- `F64.round` rounds the exact result of `n / d` units, given its sign. -/
theorem isRounded_round (hd : 0 < d) (hq : |q| = n / d / oneUnits) (hneg : q ≠ 0 → neg = decide (q < 0)) :
    (F64.round neg n d).IsRounded q := by
  have hbound := lt_overflowBound_iff hd hq
  by_cases hfin : roundUnits n d < 2 ^ 2098
  · rw [F64.round_of_lt hfin]
    refine ⟨hbound.mpr hfin, hneg, representable_roundUnits hd hfin, ?_⟩
    rintro _ ⟨m, e, hm, rfl, -⟩
    have hpos : (0 : Rat) < d * oneUnits := mul_pos (Nat.cast_pos.mpr hd) (Nat.cast_pos.mpr oneUnits_pos)
    rw [abs_unitsValue_sub hd hq, abs_unitsValue_sub hd hq, div_le_div_iff_of_pos_right hpos,
      div_left_inj' hpos.ne', Nat.cast_le, Nat.cast_inj]
    exact roundUnits_nearest hd hm
  · rw [F64.round_of_not_lt hfin]
    have hge : overflowBound ≤ |q| := not_lt.mp (hbound.not.mpr hfin)
    exact overflowBound_le_of_sign hge (hneg (abs_pos.mp (overflowBound_pos.trans_le hge)))

/-- Zero rounds to a zero of the given sign. -/
theorem F64.round_zero (neg : Bool) (d : Nat) : F64.round neg 0 d = .fin neg 0 := by
  have hzero : roundUnits 0 d = 0 := by simp [roundUnits, roundSteps, divNearestEven]
  have hlt : roundUnits 0 d < 2 ^ 2098 := by rw [hzero]; positivity
  rw [F64.round_of_lt hlt, hzero]

end

/-- Settles O42: the rounded units are the nearest magnitude, below the threshold that `roundUnits_lt_iff`
gives. -/
theorem roundsToNearestEven : Obligations.RoundsToNearestEven := by
  intro neg n d hd
  have hfin := roundUnits_lt_overflow_iff (n := n) hd
  refine ⟨fun hge => F64.round_of_not_lt (hfin.not.mpr (not_lt.mpr hge)), fun hlt => ?_⟩
  have hlt := hfin.mpr hlt
  refine ⟨roundUnits n d, F64.round_of_lt hlt, representable_roundUnits hd hlt, ?_⟩
  rintro _ ⟨m, e, hm, rfl, -⟩
  exact roundUnits_nearest hd hm

end Sys2Proof.Machine
end

section
/-! PROOFS. Each operation of BINARY64 computes its exact result and rounds it once (R11, 00_scope.md; log 8). -/
namespace Sys2Proof.Machine

section
variable {a b : F64} {x y : Rat} (ha : a.toRat? = some x)

section
variable (hb : b.toRat? = some y)
include ha hb

/-- The exact product is `u * v / 2^1074` units, under the product of the signs. -/
theorem isRounded_mul : (binary64Ops.mul a b).IsRounded (x * y) := by
  obtain ⟨s, u, rfl, hu⟩ := F64.toRat?_eq_some_iff.mp ha
  obtain ⟨t, v, rfl, hv⟩ := F64.toRat?_eq_some_iff.mp hb
  refine isRounded_round oneUnits_pos ?_ fun hne => ?_
  · rw [← hu, ← hv, abs_mul, abs_signedValue, abs_signedValue, unitsValue_eq, unitsValue_eq, Nat.cast_mul]
    ring
  · have hx0 : x ≠ 0 := left_ne_zero_of_mul hne
    have hy0 : y ≠ 0 := right_ne_zero_of_mul hne
    have hs : s = decide (x < 0) := hu ▸ sign_of_signedValue_ne_zero (hu.symm ▸ hx0)
    have ht : t = decide (y < 0) := hv ▸ sign_of_signedValue_ne_zero (hv.symm ▸ hy0)
    rw [hs, ht]
    rcases hx0.lt_or_gt with hx0 | hx0 <;> rcases hy0.lt_or_gt with hy0 | hy0 <;>
      simp [mul_neg_iff, hx0, hy0, hx0.le, hy0.le, not_lt.mpr]

/-- The exact sum is a whole number of units, with its own sign; a sum of zero is +0 unless both terms are
-0. -/
theorem isRounded_add :
    (F64.add a b).IsRounded (x + y) ∧
      (x + y = 0 → F64.add a b = .fin (decide (a = .fin true 0 ∧ b = .fin true 0)) 0) := by
  obtain ⟨s, u, rfl, rfl⟩ := F64.toRat?_eq_some_iff.mp ha
  obtain ⟨t, v, rfl, rfl⟩ := F64.toRat?_eq_some_iff.mp hb
  have hone : (0 : Rat) < oneUnits := Nat.cast_pos.mpr oneUnits_pos
  have hsum : signedValue s u + signedValue t v =
      ((signedUnits s u + signedUnits t v : Int) : Rat) / oneUnits := by
    rw [signedValue_eq, signedValue_eq, ← add_div, Int.cast_add]
  rw [hsum, F64.add]
  generalize hz : signedUnits s u + signedUnits t v = z
  refine ⟨isRounded_round Nat.one_pos ?_ fun hne => ?_, fun h0 => ?_⟩
  · rw [abs_div, abs_of_pos hone, Nat.cast_natAbs, Int.cast_abs, Nat.cast_one, div_one]
  · have hz0 : z ≠ 0 := by rintro rfl; exact hne (by simp)
    rw [if_neg hz0]
    exact decide_eq_decide.mpr (by rw [div_lt_iff₀ hone, zero_mul, Int.cast_lt_zero])
  · have hz0 : z = 0 := by simpa [hone.ne'] using h0
    rw [hz0, Int.natAbs_zero, F64.round_zero, if_pos rfl]
    rw [hz0] at hz
    cases s <;> cases t <;> simp [signedUnits] at hz ⊢
    omega

/-- The order is that of the signed units. -/
theorem lt_eq_decide : binary64Ops.lt a b = decide (x < y) := by
  obtain ⟨s, u, rfl, rfl⟩ := F64.toRat?_eq_some_iff.mp ha
  obtain ⟨t, v, rfl, rfl⟩ := F64.toRat?_eq_some_iff.mp hb
  have hone : (0 : Rat) < oneUnits := Nat.cast_pos.mpr oneUnits_pos
  refine decide_eq_decide.mpr ?_
  rw [signedValue_eq, signedValue_eq, div_lt_div_iff_of_pos_right hone, Int.cast_lt]

end

include ha

/-- The exact quotient is `u / k` units, under the sign of the dividend. -/
theorem isRounded_div {k : Nat} (hk : 0 < k) : (binary64Ops.div a k).IsRounded (x / k) := by
  obtain ⟨s, u, rfl, rfl⟩ := F64.toRat?_eq_some_iff.mp ha
  have hk' : (0 : Rat) < k := Nat.cast_pos.mpr hk
  refine isRounded_round hk ?_ fun hne => ?_
  · rw [abs_div, abs_signedValue, unitsValue_eq, abs_of_pos hk', div_right_comm]
  · have hne0 : signedValue s u ≠ 0 := fun h0 => hne (by rw [h0, zero_div])
    exact (sign_of_signedValue_ne_zero hne0).trans (decide_eq_decide.mpr (by rw [div_lt_iff₀ hk', zero_mul]))

theorem toRat?_neg : (binary64Ops.neg a).toRat? = some (-x) := by
  obtain ⟨s, u, rfl, rfl⟩ := F64.toRat?_eq_some_iff.mp ha
  have hflip : signedValue (!s) u = -signedValue s u := by cases s <;> simp [signedValue]
  exact (F64.toRat?_fin (!s) u).trans (congrArg some hflip)

end

/-- The exact integer is a whole number of units. -/
theorem isRounded_ofInt (i : Int) : (binary64Ops.ofInt i).IsRounded i := by
  refine isRounded_round Nat.one_pos ?_ fun _ => decide_eq_decide.mpr Int.cast_lt_zero.symm
  have hne : (oneUnits : Rat) ≠ 0 := Nat.cast_ne_zero.mpr oneUnits_pos.ne'
  rw [Nat.cast_mul, Nat.cast_one, div_one, mul_div_cancel_right₀ _ hne, Nat.cast_natAbs, Int.cast_abs]

/-- 1/2 is half of the units of 1. -/
theorem F64.toRat?_half : F64.half.toRat? = some (1 / 2) := by
  have hhalf : oneUnits = 2 * 1 <<< 1073 := Nat.shiftLeft_succ 1 1073
  have hne : ((1 <<< 1073 : Nat) : Rat) ≠ 0 :=
    Nat.cast_ne_zero.mpr fun h0 => oneUnits_pos.ne' (by rw [hhalf, h0])
  rw [F64.half, F64.toRat?_fin, signedValue, if_neg (by decide), unitsValue_eq, hhalf, Nat.cast_mul,
    Nat.cast_ofNat, div_mul_cancel_right₀ hne, one_div]

/-- The integer part of units that are not negative. -/
theorem F64.trunc_fin (neg : Bool) (u : Nat) : (F64.fin neg u).trunc = .int (unitsValue u).floor.toNat := by
  have hfloor : (unitsValue u).floor.toNat = ⌊unitsValue u⌋₊ := rfl
  rw [hfloor, unitsValue_eq, Nat.floor_div_eq_div, F64.trunc]

/-- `nround` of a value that is not negative: the integer part of the rounded sum with 1/2, or OVER. -/
theorem exists_nround_sum {a : F64} {x : Rat} (ha : a.toRat? = some x) (hnonneg : 0 ≤ x) :
    ∃ sum : F64, sum.IsRounded (x + 1 / 2) ∧
      (sum = .inf false ∧ binary64Ops.round a = .over ∨
        ∃ z : Rat, sum.toRat? = some z ∧ binary64Ops.round a = .int z.floor.toNat) := by
  obtain ⟨hsum, -⟩ := isRounded_add ha F64.toRat?_half
  have hpos : 0 < x + 1 / 2 := by linarith
  have hround : binary64Ops.round a = (F64.add a F64.half).trunc := rfl
  refine ⟨F64.add a F64.half, hsum, ?_⟩
  rw [hround]
  cases hcase : F64.add a F64.half with
  | nan => rw [hcase] at hsum; exact hsum.elim
  | inf neg =>
    rw [hcase] at hsum
    cases neg with
    | false => exact .inl ⟨rfl, rfl⟩
    | true =>
      have hbound : overflowBound ≤ -(x + 1 / 2) := hsum
      linarith [overflowBound_pos]
  | fin neg u =>
    rw [hcase] at hsum
    obtain ⟨-, hsign, -, -⟩ := hsum
    have hneg : neg = false := by rw [hsign hpos.ne', decide_eq_false (not_lt.mpr hpos.le)]
    exact .inr ⟨unitsValue u, by rw [hneg, F64.toRat?_fin]; rfl, F64.trunc_fin neg u⟩

/-- Settles O43: the rounded product, and zero times anything. -/
theorem productRoundedOnce : Obligations.ProductRoundedOnce := by
  refine ⟨fun a b x y hx hy => isRounded_mul hx hy, fun s t u v hzero => ?_⟩
  have hmul : u * v = 0 := Nat.mul_eq_zero.mpr hzero
  exact (congrArg (F64.round (s ^^ t) · oneUnits) hmul).trans (F64.round_zero _ _)

/-- Settles O44: the rounded quotient, and zero divided. -/
theorem quotientRoundedOnce : Obligations.QuotientRoundedOnce :=
  fun k hk => ⟨fun _ _ hx => isRounded_div hx hk, fun s => F64.round_zero s k⟩

/-- Settles O45: the rounded sum, and its sign when it is zero. -/
theorem sumRoundedOnce : Obligations.SumRoundedOnce := fun _ _ _ _ hx hy => isRounded_add hx hy

/-- Settles O46: the rounded integer; 0 has no units and the sign of a number not below 0. -/
theorem integerRoundedOnce : Obligations.IntegerRoundedOnce := by
  refine ⟨isRounded_ofInt, ?_⟩
  show F64.round false (Int.natAbs 0 * oneUnits) 1 = .fin false 0
  rw [Int.natAbs_zero, Nat.zero_mul, F64.round_zero]

/-- Settles O47: the order and the sign by the signed units; `nround` by the rounded sum with 1/2. -/
theorem comparisonNegationAndNround : Obligations.ComparisonNegationAndNround :=
  ⟨fun _ _ _ _ hx hy => lt_eq_decide hx hy, fun _ _ hx => toRat?_neg hx,
    fun _ _ hx hnonneg => exists_nround_sum hx hnonneg, rfl⟩

end Sys2Proof.Machine
end

section
/-! PROOFS. Binary64 patterns (R45, R54, 30_encoding.md): what a pattern stands for, and writing it back. -/
namespace Sys2Proof.Machine

/-! ### Reading a pattern -/

/-- The biased exponent field of a pattern. -/
def exponentField (b : DataWord) : Nat := (b.extractLsb' 52 11).toNat

/-- The fraction field of a pattern. -/
def fractionField (b : DataWord) : Nat := (b.extractLsb' 0 52).toNat

section
variable {b : DataWord}

theorem exponentField_eq (b : DataWord) : exponentField b = b.toNat / 2 ^ 52 % 2 ^ 11 := by
  rw [exponentField, BitVec.extractLsb'_toNat, Nat.shiftRight_eq_div_pow]

theorem fractionField_eq (b : DataWord) : fractionField b = b.toNat % 2 ^ 52 := by
  rw [fractionField, BitVec.extractLsb'_toNat, Nat.shiftRight_zero]

theorem fractionField_lt (b : DataWord) : fractionField b < 2 ^ 52 := BitVec.isLt _

/-- The units of a finite pattern: its fraction, with the hidden bit and scaled in the normal range. -/
def patternUnits (b : DataWord) : Nat :=
  if exponentField b = 0 then fractionField b else (2 ^ 52 + fractionField b) * 2 ^ (exponentField b - 1)

theorem F64.ofBits_finite (h : exponentField b ≠ 2047) :
    F64.ofBits b = .fin (b.getLsbD 63) (patternUnits b) := by
  rw [F64.ofBits, patternUnits]
  by_cases h0 : exponentField b = 0
  · rw [if_pos h0]
    exact (if_neg h).trans (if_pos h0)
  · rw [if_neg h0, ← Nat.shiftLeft_eq]
    exact (if_neg h).trans (if_neg h0)

theorem nIsFinite_iff : nIsFinite b = true ↔ exponentField b ≠ 2047 := by
  rw [nIsFinite, exponentField, Bool.not_eq_true', beq_eq_false_iff_ne, ne_eq, ← BitVec.toNat_inj]
  rfl

/-- The finite numbers of BINARY64 and EXACT are those of the finite patterns (R11). -/
theorem binary64Ops_ofBits_eq_some_iff {x : F64} :
    binary64Ops.ofBits b = some x ↔ exponentField b ≠ 2047 ∧ x = .fin (b.getLsbD 63) (patternUnits b) := by
  have hval : binary64Ops.ofBits b = if nIsFinite b then some (F64.ofBits b) else none := rfl
  by_cases h : exponentField b = 2047
  · rw [hval, if_neg (nIsFinite_iff.not.mpr (not_not.mpr h))]
    exact ⟨nofun, fun ⟨hne, _⟩ => absurd h hne⟩
  · rw [hval, if_pos (nIsFinite_iff.mpr h), F64.ofBits_finite h, Option.some_inj]
    exact ⟨fun hx => ⟨h, hx.symm⟩, fun ⟨_, hx⟩ => hx.symm⟩

/-- Every finite pattern is below 2^1024. -/
theorem patternUnits_lt (h : exponentField b ≠ 2047) : patternUnits b < 2 ^ 2098 := by
  have hfr := fractionField_lt b
  have hex : exponentField b < 2 ^ 11 := BitVec.isLt _
  rw [patternUnits]
  split_ifs
  · exact hfr.trans (Nat.pow_lt_pow_right (by decide) (by decide))
  · calc (2 ^ 52 + fractionField b) * 2 ^ (exponentField b - 1)
      _ < 2 ^ 53 * 2 ^ (exponentField b - 1) := Nat.mul_lt_mul_of_pos_right (by omega) (by positivity)
      _ = 2 ^ (53 + (exponentField b - 1)) := (pow_add ..).symm
      _ ≤ 2 ^ 2098 := Nat.pow_le_pow_right (by decide) (by omega)

end

theorem signedValue_eq_mul (neg : Bool) (u : Nat) :
    signedValue neg u = (if neg then -1 else 1) * unitsValue u := by
  cases neg <;> simp [signedValue]

/-- The units of a normal pattern in the usual form. -/
theorem unitsValue_normal (e fr : Nat) :
    unitsValue ((2 ^ 52 + fr) * 2 ^ e) = (1 + fr / 2 ^ 52) * (2 : Rat) ^ (((e + 1 : Nat) : Int) - 1023) := by
  have hexp : ((e + 1 : Nat) : Int) - 1023 = (52 + e : Nat) - (1074 : Nat) := by push_cast; ring
  rw [hexp, zpow_sub₀ two_ne_zero, zpow_natCast, zpow_natCast, unitsValue, pow_add]
  push_cast
  ring

/-- Settles O40: by the exponent field, the fraction alone or with its hidden bit. -/
theorem patternHasItsBinary64Value : Obligations.PatternHasItsBinary64Value := by
  intro b sign ex fr
  refine ⟨fun h0 => ?subnormal, fun hpos hlt => ?normal, fun h => ?nonfinite⟩
  case subnormal =>
    have h0 : exponentField b = 0 := h0
    have hfin : exponentField b ≠ 2047 := by omega
    rw [F64.ofBits_finite hfin, F64.toRat?_fin, patternUnits, if_pos h0, signedValue_eq_mul, unitsValue,
      mul_div_assoc]
    rfl
  case normal =>
    have hpos : 0 < exponentField b := hpos
    have hfin : exponentField b ≠ 2047 := hlt.ne
    rw [F64.ofBits_finite hfin, F64.toRat?_fin, patternUnits, if_neg hpos.ne', signedValue_eq_mul,
      unitsValue_normal, Nat.sub_add_cancel hpos, mul_assoc]
    rfl
  case nonfinite =>
    have hexp : b.extractLsb' 52 11 = 2047#11 := BitVec.eq_of_toNat_eq h
    exact ⟨exactOps_ofBits_nonFinite hexp, binary64Ops_ofBits_nonFinite hexp⟩

/-! ### Writing a pattern back -/

/-- A pattern from its sign and its other fields. -/
theorem pattern_of_fields (b : DataWord) :
    BitVec.ofBool (b.getLsbD 63) ++ BitVec.ofNat 63 (exponentField b * 2 ^ 52 + fractionField b) = b := by
  have hlow : BitVec.ofNat 63 (exponentField b * 2 ^ 52 + fractionField b) = b.extractLsb' 0 63 := by
    apply BitVec.eq_of_toNat_eq
    rw [BitVec.toNat_ofNat, BitVec.extractLsb'_toNat, Nat.shiftRight_zero, exponentField_eq, fractionField_eq]
    omega
  have hhigh : BitVec.ofBool (b.getLsbD 63) = b.extractLsb' 63 1 := by
    ext j hj
    simp [show j = 0 by omega]
  rw [hlow, hhigh, BitVec.extractLsb'_append_extractLsb'_eq_extractLsb' (Nat.zero_add 63).symm]
  exact BitVec.extractLsb'_eq_self

/-- The highest set bit of units below 2^1024. -/
theorem topBit_eq_log2 {u : Nat} (h : u < 2 ^ 2098) : topBit u = u.log2 :=
  topBitFrom_eq_log2 13 u (h.trans (Nat.pow_lt_pow_right (by decide) (by decide)))

theorem log2_normal {e fr : Nat} (hfr : fr < 2 ^ 52) : ((2 ^ 52 + fr) * 2 ^ e).log2 = 52 + e := by
  have hpow : 0 < 2 ^ e := by positivity
  have hne : (2 ^ 52 + fr) * 2 ^ e ≠ 0 := (Nat.mul_pos (by omega) hpow).ne'
  rw [Nat.log2_eq_iff hne, show 52 + e + 1 = 53 + e by omega, pow_add, pow_add]
  exact ⟨Nat.mul_le_mul_right _ (by omega), Nat.mul_lt_mul_of_pos_right (by omega) hpow⟩

theorem F64.toBits_fin {neg : Bool} {u : Nat} (h : u < 2 ^ 2098) :
    (F64.fin neg u).toBits =
      BitVec.ofBool neg ++ BitVec.ofNat 63 (((u.log2 - 52) <<< 52) + (u >>> (u.log2 - 52))) := by
  rw [F64.toBits, topBit_eq_log2 h]

/-- Units in the subnormal range are written as their fraction. -/
theorem packed_subnormal {fr : Nat} (hfr : fr < 2 ^ 52) :
    ((fr.log2 - 52) <<< 52) + (fr >>> (fr.log2 - 52)) = fr := by
  have hlog : fr.log2 - 52 = 0 := by
    rcases Nat.eq_zero_or_pos fr with rfl | hpos
    · rfl
    · have := (Nat.log2_lt hpos.ne').mpr hfr
      omega
  rw [hlog, Nat.zero_shiftLeft, Nat.shiftRight_zero, Nat.zero_add]

/-- Units in the normal range are written as their exponent and their fraction without the hidden bit. -/
theorem packed_normal {e fr : Nat} (hfr : fr < 2 ^ 52) :
    ((((2 ^ 52 + fr) * 2 ^ e).log2 - 52) <<< 52) +
      (((2 ^ 52 + fr) * 2 ^ e) >>> (((2 ^ 52 + fr) * 2 ^ e).log2 - 52)) = (e + 1) * 2 ^ 52 + fr := by
  have hpow : 0 < 2 ^ e := by positivity
  rw [log2_normal hfr, Nat.add_sub_cancel_left, Nat.shiftRight_eq_div_pow, Nat.mul_div_cancel _ hpow,
    Nat.shiftLeft_eq, Nat.succ_mul, Nat.add_assoc]

/-- Settles O41: the highest set bit gives the exponent field back, and the bits from it on the fraction. -/
theorem patternOfFiniteValue : Obligations.PatternOfFiniteValue := by
  intro b hb
  have hfin : exponentField b ≠ 2047 := nIsFinite_iff.mp hb
  have hfr := fractionField_lt b
  rw [F64.ofBits_finite hfin, F64.toBits_fin (patternUnits_lt hfin), patternUnits]
  by_cases h0 : exponentField b = 0
  · rw [if_pos h0, packed_subnormal hfr]
    simpa [h0] using pattern_of_fields b
  · rw [if_neg h0, packed_normal hfr, Nat.sub_add_cancel (Nat.pos_of_ne_zero h0)]
    exact pattern_of_fields b

end Sys2Proof.Machine
end

section
/-!
PROOFS. Rounded results against the numbers of BINARY64 (R11, 00_scope.md): a rounded result does not cross a
binary64 number, and is off by one part in 2^52 at most.
-/
namespace Sys2Proof.Machine

/-! ### The magnitudes of BINARY64 -/

/-- A rational number that is the magnitude of a finite binary64 number. -/
def IsMagnitude (m : Rat) : Prop := ∃ u, Representable u ∧ unitsValue u = m

/-- A whole number of up to 53 bits, scaled by a power of two in range. -/
theorem isMagnitude_mul_zpow {k : Nat} {i : Int} (hk : k ≤ 2 ^ 53) (hlow : -1074 ≤ i) (hhigh : i ≤ 970) :
    IsMagnitude (k * 2 ^ i) := by
  obtain ⟨e, he⟩ := Int.eq_ofNat_of_zero_le (show 0 ≤ i + 1074 by omega)
  have hvalue : unitsValue (k * 2 ^ e) = k * 2 ^ i := by
    have hi : i = (e : Int) - (1074 : Nat) := by push_cast; omega
    rw [hi, zpow_sub₀ two_ne_zero, zpow_natCast, zpow_natCast, unitsValue, Nat.cast_mul, Nat.cast_pow,
      Nat.cast_ofNat, mul_div_assoc]
  have hlt : k * 2 ^ e < 2 ^ 2098 :=
    calc k * 2 ^ e ≤ 2 ^ 53 * 2 ^ e := Nat.mul_le_mul_right _ hk
      _ = 2 ^ (53 + e) := (pow_add ..).symm
      _ < 2 ^ 2098 := Nat.pow_lt_pow_right (by decide) (by omega)
  refine ⟨k * 2 ^ e, ?_, hvalue⟩
  rcases hk.lt_or_eq with hk | rfl
  · exact ⟨k, e, hk, rfl, hlt⟩
  · exact ⟨1, 53 + e, by decide, by rw [one_mul, pow_add], hlt⟩

theorem isMagnitude_natCast {k : Nat} (hk : k ≤ 2 ^ 53) : IsMagnitude k := by
  simpa using isMagnitude_mul_zpow (i := 0) hk (by decide) (by decide)

theorem isMagnitude_zero : IsMagnitude 0 := by
  simpa using isMagnitude_natCast (k := 0) (by decide)

theorem isMagnitude_one : IsMagnitude 1 := by
  simpa using isMagnitude_natCast (k := 1) (by decide)

theorem isMagnitude_two_pow_63 : IsMagnitude (2 ^ 63 : Nat) := by
  rw [Nat.cast_pow, Nat.cast_ofNat, ← zpow_natCast, ← one_mul ((2 : Rat) ^ _), ← Nat.cast_one (R := Rat)]
  exact isMagnitude_mul_zpow (by decide) (by decide) (by decide)

/-- Just above every number in range there is a magnitude. -/
theorem exists_magnitude_ge {x : Rat} (hlow : 2 ^ (-1022 : Int) ≤ x) (hhigh : x < 2 ^ (1023 : Int)) :
    ∃ m, IsMagnitude m ∧ x ≤ m ∧ m ≤ x * (1 + 1 / 2 ^ 52) := by
  have hpos : 0 < x := lt_of_lt_of_le (by positivity) hlow
  have hle : (2 : Rat) ^ Int.log 2 x ≤ x := by exact_mod_cast Int.zpow_log_le_self (by decide) hpos
  have hlt : x < 2 ^ (Int.log 2 x + 1) := by exact_mod_cast Int.lt_zpow_succ_log_self (b := 2) (by decide) x
  have hloglow : -1022 < Int.log 2 x + 1 := (zpow_lt_zpow_iff_right₀ (by norm_num)).mp (hlow.trans_lt hlt)
  have hloghigh : Int.log 2 x < 1023 := (zpow_lt_zpow_iff_right₀ (by norm_num)).mp (hle.trans_lt hhigh)
  obtain ⟨i, hi⟩ : ∃ i, Int.log 2 x = i + 52 := ⟨Int.log 2 x - 52, by ring⟩
  have hstep : (0 : Rat) < 2 ^ i := by positivity
  have hsmall : (2 : Rat) ^ i ≤ x * (1 / 2 ^ 52) := by
    rw [hi, zpow_add₀ two_ne_zero] at hle
    rw [mul_one_div, le_div_iff₀ (by positivity)]
    exact_mod_cast hle
  have hceil := Nat.ceil_lt_add_one (div_pos hpos hstep).le
  have hk : ⌈x / 2 ^ i⌉₊ ≤ 2 ^ 53 := by
    rw [Nat.ceil_le, div_le_iff₀ hstep]
    refine hlt.le.trans_eq ?_
    rw [hi, show i + 52 + 1 = (53 : Nat) + i by push_cast; ring, zpow_add₀ two_ne_zero, zpow_natCast]
    norm_cast
  refine ⟨_, isMagnitude_mul_zpow (i := i) hk (by omega) (by omega), ?_, ?_⟩
  · exact (div_le_iff₀ hstep).mp (Nat.le_ceil _)
  · calc (⌈x / 2 ^ i⌉₊ : Rat) * 2 ^ i ≤ (x / 2 ^ i + 1) * 2 ^ i := by gcongr
      _ = x + 2 ^ i := by field_simp
      _ ≤ x * (1 + 1 / 2 ^ 52) := by rw [mul_add, mul_one]; gcongr

/-! ### A rounded result -/

/-- No magnitude stands between an exact result and the magnitude nearest to it. -/
theorem nearest_between {u : Nat} {q m : Rat}
    (hnear : ∀ v, Representable v → abs (unitsValue u - |q|) ≤ abs (unitsValue v - |q|)) (hm : IsMagnitude m) :
    (|q| ≤ m → unitsValue u ≤ m) ∧ (m ≤ |q| → m ≤ unitsValue u) := by
  obtain ⟨v, hv, rfl⟩ := hm
  have hdist := hnear v hv
  refine ⟨fun hle => ?_, fun hle => ?_⟩
  · rw [abs_of_nonneg (sub_nonneg.mpr hle)] at hdist
    linarith [le_abs_self (unitsValue u - |q|)]
  · rw [abs_of_nonpos (sub_nonpos.mpr hle)] at hdist
    linarith [neg_abs_le (unitsValue u - |q|)]

/-- The value of rounded units lies on the side of the exact result's sign. -/
theorem signedValue_of_sign {neg : Bool} {u : Nat} {q : Rat} (hsign : q ≠ 0 → neg = decide (q < 0))
    (hzero : q = 0 → unitsValue u = 0) :
    (0 ≤ q → 0 ≤ signedValue neg u) ∧ (q ≤ 0 → signedValue neg u ≤ 0) := by
  rcases lt_trichotomy q 0 with hneg | h0 | hpos
  · rw [hsign hneg.ne, decide_eq_true hneg]
    exact ⟨fun h => absurd hneg (not_lt.mpr h), fun _ => neg_nonpos.mpr (unitsValue_nonneg u)⟩
  · have hval : signedValue neg u = 0 := abs_eq_zero.mp ((abs_signedValue neg u).trans (hzero h0))
    exact ⟨fun _ => hval.ge, fun _ => hval.le⟩
  · rw [hsign hpos.ne', decide_eq_false (not_lt.mpr hpos.le)]
    exact ⟨fun _ => unitsValue_nonneg u, fun h => absurd hpos (not_lt.mpr h)⟩

/-- What rounding below the threshold of overflow gives: a finite value on the side of the exact result's sign,
that no magnitude separates from the exact result. -/
theorem F64.IsRounded.exists_value {r : F64} {q : Rat} (h : r.IsRounded q) (hq : |q| < overflowBound) :
    ∃ z, r.toRat? = some z ∧ (0 ≤ q → 0 ≤ z) ∧ (q ≤ 0 → z ≤ 0) ∧
      ∀ m, IsMagnitude m → (|q| ≤ m → |z| ≤ m) ∧ (m ≤ |q| → m ≤ |z|) := by
  cases r with
  | nan => exact h.elim
  | inf neg =>
    have hle : overflowBound ≤ |q| := by
      cases neg with
      | false => exact le_trans h (le_abs_self q)
      | true => exact le_trans h (neg_le_abs q)
    exact absurd hq (not_lt.mpr hle)
  | fin neg u =>
    obtain ⟨-, hsign, -, hnear⟩ := h
    have hbetween (m : Rat) := nearest_between (m := m) fun v hv => (hnear v hv).1
    have hzero (h0 : q = 0) : unitsValue u = 0 :=
      le_antisymm ((hbetween 0 isMagnitude_zero).1 (by rw [h0, abs_zero])) (unitsValue_nonneg u)
    obtain ⟨hpos, hneg⟩ := signedValue_of_sign hsign hzero
    refine ⟨signedValue neg u, F64.toRat?_fin neg u, hpos, hneg, ?_⟩
    rw [abs_signedValue]
    exact hbetween

/-- The same for an exact result that is not negative. -/
theorem F64.IsRounded.exists_nonneg {r : F64} {q : Rat} (h : r.IsRounded q) (hnonneg : 0 ≤ q)
    (hq : q < overflowBound) :
    ∃ z, r.toRat? = some z ∧ 0 ≤ z ∧ ∀ m, IsMagnitude m → (q ≤ m → z ≤ m) ∧ (m ≤ q → m ≤ z) := by
  obtain ⟨z, hz, hpos, -, hbetween⟩ := h.exists_value (by rwa [abs_of_nonneg hnonneg])
  rw [abs_of_nonneg hnonneg, abs_of_nonneg (hpos hnonneg)] at hbetween
  exact ⟨z, hz, hpos hnonneg, hbetween⟩

/-- A result that is a magnitude is exact. -/
theorem F64.IsRounded.toRat?_eq {r : F64} {q : Rat} (h : r.IsRounded q) (hq : IsMagnitude |q|)
    (hlt : |q| < overflowBound) : r.toRat? = some q := by
  obtain ⟨z, hz, hpos, hneg, hbetween⟩ := h.exists_value hlt
  have habs : |z| = |q| := le_antisymm ((hbetween _ hq).1 le_rfl) ((hbetween _ hq).2 le_rfl)
  rw [hz, Option.some_inj]
  rcases le_total 0 q with h0 | h0
  · rwa [abs_of_nonneg h0, abs_of_nonneg (hpos h0)] at habs
  · rw [abs_of_nonpos h0, abs_of_nonpos (hneg h0)] at habs
    exact neg_inj.mp habs

/-- `nround` below the threshold of overflow: the integer part of a value that no magnitude separates from the
exact sum with 1/2. -/
theorem exists_nround_value {a : F64} {x : Rat} (ha : a.toRat? = some x) (hx : 0 ≤ x)
    (hlt : x + 1 / 2 < overflowBound) :
    ∃ z, binary64Ops.round a = .int z.floor.toNat ∧ 0 ≤ z ∧
      ∀ m, IsMagnitude m → (x + 1 / 2 ≤ m → z ≤ m) ∧ (m ≤ x + 1 / 2 → m ≤ z) := by
  obtain ⟨sum, hsum, hround⟩ := exists_nround_sum ha hx
  obtain ⟨z, hz, hnonneg, hbetween⟩ := hsum.exists_nonneg (by linarith) hlt
  obtain ⟨rfl, -⟩ | ⟨w, hw, hround⟩ := hround
  · cases hz
  · rw [hz, Option.some_inj] at hw
    exact ⟨z, hw ▸ hround, hnonneg, hbetween⟩

/-- Everything up to 2^1023 is below the threshold of overflow. -/
theorem two_pow_lt_overflowBound : (2 : Rat) ^ (1023 : Int) < overflowBound := by
  rw [overflowBound, show (1023 : Int) = (53 : Nat) + (970 : Nat) by norm_num, zpow_add₀ two_ne_zero,
    zpow_natCast, zpow_natCast]
  have hpos : (0 : Rat) < 2 ^ 970 := by positivity
  exact mul_lt_mul_of_pos_right (by norm_num) hpos

end Sys2Proof.Machine
end

section
/-!
PROOFS. The reduction against its bound (R83, R84, R96, 43_formatter.md) in any numeric domain in which `scale`
falls below 1 with `fd` and the product with it below 2: it ends, and its guarded variant (R97) shows the same.
-/
namespace Sys2Proof.Machine

variable {N : Type} {D : NumOps N} {value : N} {fd0 base limit : Nat}

/-- The facts about a domain's arithmetic that the reduction's bound rests on: past `fd = 0` the scale is below 1,
and after the last pass allowed hardly anything is left of the value. -/
structure ReductionEnds (D : NumOps N) (value : N) (fd0 base : Nat) : Prop where
  scale_lt : ∀ j ≤ 1024, D.lt (reductionPass D value base fd0 (fd0 + 1 + j)).scale (D.ofInt 1) = true
  dv_le : ∃ n ≤ 1, (reductionPass D value base fd0 (fd0 + 1025)).dv = .int n

/-- The loop has ended with an integer below the limit (R96). -/
theorem ReductionEnds.not_reaches (h : ReductionEnds D value fd0 base) (hlimit : 1 < limit) :
    (reduced D value fd0 base limit).dv.reaches limit = false := by
  obtain ⟨k, hk, heq, -, hend⟩ := exists_reduced_eq_pass D value base limit fd0
  rw [heq]
  rcases hk.lt_or_eq with hlt | rfl
  · exact hend hlt
  · obtain ⟨n, hn, hdv⟩ := h.dv_le
    exact DisplayValue.reaches_eq_false_iff.mpr ⟨n, hdv, by omega⟩

/-- The loop's result is the first pass whose integer is below the limit. -/
theorem reduced_eq_pass {k : Nat} (hk : k ≤ fd0 + 1025)
    (hbefore : ∀ j < k, (reductionPass D value base fd0 j).dv.reaches limit = true)
    (hfit : (reductionPass D value base fd0 k).dv.reaches limit = false) :
    reduced D value fd0 base limit = reductionPass D value base fd0 k := by
  obtain ⟨k', hk', heq, hbefore', hend'⟩ := exists_reduced_eq_pass D value base limit fd0
  rw [heq]
  rcases Nat.lt_trichotomy k k' with hlt | rfl | hlt
  · exact absurd (hbefore' k hlt) (by rw [hfit]; decide)
  · rfl
  · exact absurd (hbefore k' hlt) (by rw [hend' (by omega)]; decide)

/-- When no pass down to `fd = 0` fits, the loop leaves a scale below 1 (R84). -/
theorem ReductionEnds.scale_lt_of_reaches (h : ReductionEnds D value fd0 base)
    (hreach : ∀ j ≤ fd0, (reductionPass D value base fd0 j).dv.reaches limit = true) :
    D.lt (reduced D value fd0 base limit).scale (D.ofInt 1) = true := by
  obtain ⟨k, hk, heq, -, hend⟩ := exists_reduced_eq_pass D value base limit fd0
  have hpast : fd0 < k := by
    by_contra hle
    have hstop := hend (by omega)
    rw [hreach k (by omega)] at hstop
    cases hstop
  have hj := h.scale_lt (k - (fd0 + 1)) (by omega)
  rwa [Nat.add_sub_cancel' hpast, ← heq] at hj

/-- While `fd` counts the passes left, the guard on `fd` never ends the loop (R97). -/
theorem guardedLoop_eq_reduceLoop (passes : Nat) (w : Working N) (hfd : w.fd = (passes : Int) - 1) :
    guardedLoop D value base limit passes w = reduceLoop D value base limit passes w := by
  induction passes generalizing w with
  | zero => rfl
  | succ n ih =>
    have hguard : decide (0 ≤ w.fd) = true := decide_eq_true (by push_cast at hfd; omega)
    have hnext : (reducePass D value base w).fd = (n : Int) - 1 := by
      rw [reducePass, hfd]; push_cast; ring
    rw [guardedLoop, reduceLoop, hguard, Bool.and_true, ih _ hnext]

/-- The guarded loop's result is the first pass down to `fd = 0` that fits, or the one after. -/
theorem exists_guardedReduced_eq_pass (D : NumOps N) (value : N) (fd0 base limit : Nat) :
    ∃ k ≤ fd0 + 1, guardedReduced D value fd0 base limit = reductionPass D value base fd0 k ∧
      (∀ j < k, (reductionPass D value base fd0 j).dv.reaches limit = true) ∧
      (k < fd0 + 1 → (reductionPass D value base fd0 k).dv.reaches limit = false) := by
  have hloop : guardedReduced D value fd0 base limit =
      reduceLoop D value base limit (fd0 + 1) (reductionStart D value base fd0) :=
    guardedLoop_eq_reduceLoop _ _ (by push_cast; ring)
  rw [hloop]
  exact exists_reduceLoop_eq_iterate D value base limit (fd0 + 1) (reductionStart D value base fd0)

/-- The guarded loop and the loop leave one buffer: they end at the same pass, or both with a scale below 1. -/
theorem ReductionEnds.finish_guardedReduced (h : ReductionEnds D value fd0 base) (c : Config)
    (negative : Bool) (b : Buffer) :
    finish D c base limit negative (guardedReduced D value fd0 base limit) b =
      finish D c base limit negative (reduced D value fd0 base limit) b := by
  obtain ⟨k, hk, heq, hbefore, hend⟩ := exists_guardedReduced_eq_pass D value fd0 base limit
  rcases hk.lt_or_eq with hlt | rfl
  · rw [heq, reduced_eq_pass (by omega) hbefore (hend hlt)]
  · have hscale : D.lt (guardedReduced D value fd0 base limit).scale (D.ofInt 1) = true :=
      heq ▸ h.scale_lt 0 (by omega)
    rw [finish_of_scale_lt hscale,
      finish_of_scale_lt (h.scale_lt_of_reaches fun j hj => hbefore j (by omega))]

/-! ### The whole procedure -/

section
variable {x : N}

/-- `Format` shows the numeral of the first pass that fits, when its scale is not below 1. -/
theorem formatValue_of_fit (hbase : 0 < base) {k n : Nat} (hk : k ≤ fd0 + 1025)
    (hbefore : ∀ j < k, (reductionPass D (magnitude D x) base fd0 j).dv.reaches
      (limitOf base (isNegative D x)) = true)
    (hdv : (reductionPass D (magnitude D x) base fd0 k).dv = .int n)
    (hn : n < limitOf base (isNegative D x))
    (hscale : D.lt (reductionPass D (magnitude D x) base fd0 k).scale (D.ofInt 1) = false) (c : Config)
    (b : Buffer) :
    formatValue D c x fd0 base b = numeralBuffer c base ((fd0 : Int) - k) n (isNegative D x) := by
  have hfit : (reductionPass D (magnitude D x) base fd0 k).dv.reaches (limitOf base (isNegative D x)) =
      false := DisplayValue.reaches_eq_false_iff.mpr ⟨n, hdv, hn⟩
  rw [formatValue, reduced_eq_pass hk hbefore hfit, finish_of_int_lt hbase hscale hdv hn, reductionPass_fd]

/-- `Format` shows the error pattern when no pass down to `fd = 0` fits. -/
theorem formatValue_of_reaches (h : ReductionEnds D (magnitude D x) fd0 base)
    (hreach : ∀ j ≤ fd0, (reductionPass D (magnitude D x) base fd0 j).dv.reaches
      (limitOf base (isNegative D x)) = true) (c : Config) (b : Buffer) :
    formatValue D c x fd0 base b = Buffer.errorPattern := by
  rw [formatValue, finish_of_scale_lt (h.scale_lt_of_reaches hreach)]

end

/-- Every limit leaves room for the digits 0 and 1. -/
theorem one_lt_limitOf (hbase : 2 ≤ base) (negative : Bool) : 1 < limitOf base negative := by
  have hdigits : availableDigits negative ≠ 0 := by cases negative <;> decide
  exact Nat.one_lt_pow hdigits (by omega)

end Sys2Proof.Machine
end

section
/-! PROOFS. The reduction in the domain EXACT (R11, R79 to R83): `scale` is a power of the base throughout. -/
namespace Sys2Proof.Machine

variable {value : Rat} {fd0 base : Nat}

theorem scaleOf_exact (base fd0 : Nat) : scaleOf exactOps base fd0 = (base : Rat) ^ fd0 := by
  induction fd0 with
  | zero => simp [scaleOf, exactOps]
  | succ k ih => rw [scaleOf, ih, pow_succ]; simp [exactOps]

theorem reductionPass_exact_scale (hbase : 0 < base) (value : Rat) (fd0 k : Nat) :
    (reductionPass exactOps value base fd0 k).scale = (base : Rat) ^ ((fd0 : Int) - k) := by
  have hne : (base : Rat) ≠ 0 := Nat.cast_ne_zero.mpr hbase.ne'
  induction k with
  | zero => simp [reductionStart, scaleOf_exact]
  | succ k ih =>
    have hdiv (a : Rat) : exactOps.div a base = a / base := rfl
    rw [reductionPass_succ_scale, ih, hdiv, show (fd0 : Int) - (k + 1 : Nat) = fd0 - k - 1 by push_cast; ring,
      zpow_sub_one₀ hne, div_eq_mul_inv]

theorem reductionPass_exact_dv (hbase : 0 < base) (value : Rat) (fd0 k : Nat) :
    (reductionPass exactOps value base fd0 k).dv =
      .int (value * (base : Rat) ^ ((fd0 : Int) - k) + 1 / 2).floor.toNat := by
  rw [reductionPass_dv, reductionPass_exact_scale hbase]
  rfl

/-- Down to `fd = 0` the integer of a pass is the value rounded half up to `fd` digits (R81). -/
theorem reductionPass_exact_dv_of_le (hbase : 0 < base) (value : Rat) {k : Nat} (hk : k ≤ fd0) :
    (reductionPass exactOps value base fd0 k).dv = .int (exactDisplay value base (fd0 - k)) := by
  rw [reductionPass_exact_dv hbase, exactDisplay, ← Nat.cast_sub hk, zpow_natCast]

theorem exactOps_lt_one_iff (s : Rat) : exactOps.lt s (exactOps.ofInt 1) = decide (s < 1) := by
  simp [exactOps]

/-- Past `fd = 0` the scale is a negative power of the base, so nothing of a value below 2^1024 is left after 1025
passes more. -/
theorem reductionEnds_exact (hbase : 2 ≤ base) (hnonneg : 0 ≤ value) (hvalue : value < 2 ^ 1024) (fd0 : Nat) :
    ReductionEnds exactOps value fd0 base where
  scale_lt j _ := by
    have hone : (1 : Rat) < base := by exact_mod_cast hbase
    rw [reductionPass_exact_scale (by omega), exactOps_lt_one_iff, decide_eq_true_iff]
    exact zpow_lt_one_of_neg₀ hone (by push_cast; omega)
  dv_le := by
    have hbase' : (2 : Rat) ≤ base := by exact_mod_cast hbase
    have hexp : (fd0 : Int) - (fd0 + 1025 : Nat) = -(1025 : Nat) := by push_cast; ring
    have hscale : (base : Rat) ^ ((fd0 : Int) - (fd0 + 1025 : Nat)) ≤ (2 ^ 1025)⁻¹ := by
      rw [hexp, zpow_neg, zpow_natCast]
      gcongr
    have hprod : value * (base : Rat) ^ ((fd0 : Int) - (fd0 + 1025 : Nat)) < 1 / 2 :=
      calc value * (base : Rat) ^ ((fd0 : Int) - (fd0 + 1025 : Nat)) ≤ value * (2 ^ 1025)⁻¹ := by gcongr
        _ < 2 ^ 1024 * (2 ^ 1025)⁻¹ := by gcongr
        _ = 1 / 2 := by rw [pow_succ]; field_simp
    refine ⟨0, by decide, ?_⟩
    rw [reductionPass_exact_dv (by omega)]
    have hfloor : ⌊value * (base : Rat) ^ ((fd0 : Int) - (fd0 + 1025 : Nat)) + 1 / 2⌋ < 0 + 1 := by
      rw [Int.floor_lt, zero_add, Int.cast_one]
      linarith
    exact congrArg DisplayValue.int (Int.toNat_of_nonpos (Int.lt_add_one_iff.mp hfloor))

/-- More digits never show a smaller integer. -/
theorem exactDisplay_mono (hbase : 1 ≤ base) (hnonneg : 0 ≤ value) {k j : Nat} (h : k ≤ j) :
    exactDisplay value base k ≤ exactDisplay value base j := by
  have hpow : (base : Rat) ^ k ≤ (base : Rat) ^ j := pow_le_pow_right₀ (by exact_mod_cast hbase) h
  have hle : value * (base : Rat) ^ k + 1 / 2 ≤ value * (base : Rat) ^ j + 1 / 2 := by gcongr
  have hfloor : ⌊value * (base : Rat) ^ k + 1 / 2⌋ ≤ ⌊value * (base : Rat) ^ j + 1 / 2⌋ :=
    Int.floor_le_floor hle
  exact Int.toNat_le_toNat hfloor

theorem isNegative_exact (x : Rat) : isNegative exactOps x = decide (x < 0) := by
  simp [isNegative, exactOps]

theorem magnitude_exact (x : Rat) : magnitude exactOps x = |x| := by
  rw [magnitude, isNegative_exact]
  rcases lt_or_ge x 0 with hlt | hge
  · rw [if_pos (decide_eq_true hlt), abs_of_neg hlt]
    rfl
  · rw [if_neg (by simpa using hge), abs_of_nonneg hge]

/-- Down to `fd = 0` the scale is not below 1. -/
theorem reductionPass_exact_scale_ge (hbase : 1 ≤ base) (value : Rat) {k : Nat} (hk : k ≤ fd0) :
    exactOps.lt (reductionPass exactOps value base fd0 k).scale (exactOps.ofInt 1) = false := by
  rw [reductionPass_exact_scale hbase, exactOps_lt_one_iff, decide_eq_false_iff_not, not_lt, ← Nat.cast_sub hk,
    zpow_natCast]
  exact one_le_pow₀ (by exact_mod_cast hbase)

/-- `Format` in EXACT with a count of digits that fits while one more does not, or is not asked for. -/
theorem formatValue_exact_of_fit (hbase : 1 ≤ base) {x : Rat} {k : Nat} (hk : k ≤ fd0)
    (hfit : exactDisplay |x| base k < limitOf base (decide (x < 0)))
    (hmore : k = fd0 ∨ limitOf base (decide (x < 0)) ≤ exactDisplay |x| base (k + 1)) (c : Config) (b : Buffer) :
    formatValue exactOps c x fd0 base b =
      numeralBuffer c base k (exactDisplay |x| base k) (decide (x < 0)) := by
  have hk' : fd0 - k ≤ fd0 := Nat.sub_le ..
  have hsub : fd0 - (fd0 - k) = k := Nat.sub_sub_self hk
  have hfd : (fd0 : Int) - (fd0 - k : Nat) = k := by omega
  rw [formatValue_of_fit (k := fd0 - k) (n := exactDisplay |x| base k) hbase (by omega) ?before ?dv ?fit ?scale,
    hfd, isNegative_exact]
  case before =>
    intro j hj
    rw [magnitude_exact, isNegative_exact, reductionPass_exact_dv_of_le hbase _ (by omega), DisplayValue.reaches,
      decide_eq_true_iff]
    have hmore : limitOf base (decide (x < 0)) ≤ exactDisplay |x| base (k + 1) := hmore.resolve_left (by omega)
    exact hmore.trans (exactDisplay_mono hbase (abs_nonneg x) (by omega))
  case dv => rw [magnitude_exact, reductionPass_exact_dv_of_le hbase _ hk', hsub]
  case fit => rwa [isNegative_exact]
  case scale => exact reductionPass_exact_scale_ge hbase _ hk'

/-- `Format` in EXACT of a value that does not fit even without fractional digits. -/
theorem formatValue_exact_of_overflow (hbase : 2 ≤ base) {x : Rat} (hx : |x| < 2 ^ 1024)
    (hover : limitOf base (decide (x < 0)) ≤ exactDisplay |x| base 0) (fd0 : Nat) (c : Config) (b : Buffer) :
    formatValue exactOps c x fd0 base b = Buffer.errorPattern := by
  have hbase' : 1 ≤ base := by omega
  refine formatValue_of_reaches (magnitude_exact x ▸ reductionEnds_exact hbase (abs_nonneg x) hx fd0) ?_ c b
  intro j hj
  rw [magnitude_exact, isNegative_exact, reductionPass_exact_dv_of_le hbase' _ hj, DisplayValue.reaches,
    decide_eq_true_iff]
  exact hover.trans (exactDisplay_mono hbase' (abs_nonneg x) (Nat.zero_le _))

end Sys2Proof.Machine
end

section
/-!
PROOFS. The reduction in the domain BINARY64 (R11, R79 to R83, R96): every rounding of `scale` adds one part in
2^52 at most, so that past `fd = 0` it is below 1 all the same and from then on at least halves.
-/
namespace Sys2Proof.Machine

/-! ### Values of the operations the formatter starts from -/

theorem natCast_lt_overflowBound {k : Nat} (hk : k ≤ 2 ^ 64) : (k : Rat) < overflowBound := by
  have hpow : (2 : Rat) ^ (64 : Int) ≤ 2 ^ (1023 : Int) := zpow_le_zpow_right₀ (by norm_num) (by norm_num)
  have hcast : (k : Rat) ≤ 2 ^ (64 : Int) := by exact_mod_cast hk
  exact (hcast.trans hpow).trans_lt two_pow_lt_overflowBound

/-- Integers of up to 53 bits are exact. -/
theorem toRat?_ofInt_of_small {i : Int} (h : i.natAbs ≤ 2 ^ 53) :
    (binary64Ops.ofInt i).toRat? = some (i : Rat) := by
  have habs : |(i : Rat)| = i.natAbs := by rw [Nat.cast_natAbs, Int.cast_abs]
  refine (isRounded_ofInt i).toRat?_eq ?_ ?_
  · rw [habs]; exact isMagnitude_natCast h
  · rw [habs]; exact natCast_lt_overflowBound (h.trans (by decide))

theorem toRat?_ofInt_zero : (binary64Ops.ofInt 0).toRat? = some 0 := by
  simpa using toRat?_ofInt_of_small (i := 0) (by decide)

theorem toRat?_ofInt_one : (binary64Ops.ofInt 1).toRat? = some 1 := by
  simpa using toRat?_ofInt_of_small (i := 1) (by decide)

theorem lt_one_eq {a : F64} {x : Rat} (ha : a.toRat? = some x) :
    binary64Ops.lt a (binary64Ops.ofInt 1) = decide (x < 1) :=
  lt_eq_decide ha toRat?_ofInt_one

theorem isNegative_binary64 {a : F64} {x : Rat} (ha : a.toRat? = some x) :
    isNegative binary64Ops a = decide (x < 0) :=
  lt_eq_decide ha toRat?_ofInt_zero

theorem toRat?_magnitude {a : F64} {x : Rat} (ha : a.toRat? = some x) :
    (magnitude binary64Ops a).toRat? = some |x| := by
  rw [magnitude, isNegative_binary64 ha]
  rcases lt_or_ge x 0 with hlt | hge
  · rw [if_pos (decide_eq_true hlt), abs_of_neg hlt]
    exact toRat?_neg ha
  · rw [if_neg (by simpa using hge), abs_of_nonneg hge, ha]

/-! ### The scale -/

/-- What `t` roundings in a row can add, in parts of 1. -/
def slack (t : Nat) : Rat := 1 + t / 2 ^ 51

theorem slack_mul_le {t : Nat} (ht : t ≤ 2 ^ 51) : slack t * (1 + 1 / 2 ^ 52) ≤ slack (t + 1) := by
  have ht' : (t : Rat) ≤ 2 ^ 51 := by exact_mod_cast ht
  rw [slack, slack, Nat.cast_succ]
  linarith

theorem slack_bounds {t : Nat} (ht : t ≤ 511) : 1 ≤ slack t ∧ slack t ≤ 3 / 2 := by
  have ht' : (t : Rat) ≤ 511 := by exact_mod_cast ht
  have hnonneg : (0 : Rat) ≤ t := Nat.cast_nonneg t
  rw [slack]
  constructor <;> linarith

/-- A rounded result below a bound is below it but for one part in 2^52, for bounds the scale meets. -/
theorem F64.IsRounded.exists_le_slack {r : F64} {q bound : Rat} (h : r.IsRounded q) (hnonneg : 0 ≤ q)
    (hq : q ≤ bound) (hlow : 1 / 16 ≤ bound) (hhigh : bound ≤ 2 ^ 1022) :
    ∃ z, r.toRat? = some z ∧ 0 ≤ z ∧ z ≤ bound * (1 + 1 / 2 ^ 52) ∧ ∀ m, IsMagnitude m → m ≤ q → m ≤ z := by
  have hbound : bound < 2 ^ (1023 : Int) := by
    have hpow : (2 : Rat) ^ (1022 : Int) < 2 ^ (1023 : Int) := zpow_lt_zpow_right₀ (by norm_num) (by norm_num)
    exact hhigh.trans_lt (by exact_mod_cast hpow)
  have hsixteenth : (2 : Rat) ^ (-1022 : Int) ≤ 1 / 16 := by
    have hpow : (2 : Rat) ^ (-1022 : Int) ≤ 2 ^ (-4 : Int) := zpow_le_zpow_right₀ (by norm_num) (by norm_num)
    exact hpow.trans_eq (by norm_num)
  obtain ⟨m, hm, hge, hle⟩ := exists_magnitude_ge (hsixteenth.trans hlow) hbound
  obtain ⟨z, hz, hz0, hbetween⟩ := h.exists_nonneg hnonneg
    ((hq.trans_lt hbound).trans two_pow_lt_overflowBound)
  exact ⟨z, hz, hz0, ((hbetween m hm).1 (hq.trans hge)).trans hle, fun m' hm' => (hbetween m' hm').2⟩

section
variable {base : Nat} (hlow : 2 ≤ base) (hhigh : base ≤ 16)
include hlow hhigh

/-- The powers of the base that the scale stands for, down to `fd = -1`. -/
theorem base_zpow_bounds {e : Int} (he : -1 ≤ e) (he' : e ≤ 255) :
    1 / 16 ≤ (base : Rat) ^ e ∧ (base : Rat) ^ e ≤ 2 ^ 1020 := by
  have hone : (1 : Rat) ≤ base := by exact_mod_cast (by omega : 1 ≤ base)
  have hsixteen : (base : Rat) ≤ 2 ^ 4 := by exact_mod_cast hhigh
  constructor
  · calc (1 : Rat) / 16 ≤ (base : Rat)⁻¹ := by
          rw [one_div]; exact inv_anti₀ (by linarith) (by linarith)
      _ = (base : Rat) ^ (-1 : Int) := (zpow_neg_one _).symm
      _ ≤ (base : Rat) ^ e := zpow_le_zpow_right₀ hone he
  · calc (base : Rat) ^ e ≤ (base : Rat) ^ (255 : Int) := zpow_le_zpow_right₀ hone he'
      _ = (base : Rat) ^ 255 := by norm_cast
      _ ≤ (2 ^ 4) ^ 255 := pow_le_pow_left₀ (by linarith) hsixteen 255
      _ = 2 ^ 1020 := by rw [← pow_mul]

/-- The bound on the scale after `t` roundings is one that the rounding of the next step keeps to. -/
theorem slack_bound_in_range {e : Int} (he : -1 ≤ e) (he' : e ≤ 255) {t : Nat} (ht : t ≤ 511) :
    1 / 16 ≤ (base : Rat) ^ e * slack t ∧ (base : Rat) ^ e * slack t ≤ 2 ^ 1022 := by
  obtain ⟨hpow, hpow'⟩ := base_zpow_bounds hlow hhigh he he'
  obtain ⟨hslack, hslack'⟩ := slack_bounds ht
  constructor
  · exact hpow.trans (le_mul_of_one_le_right (by linarith) hslack)
  · calc (base : Rat) ^ e * slack t ≤ 2 ^ 1020 * 2 ^ 2 := by gcongr; linarith
      _ = 2 ^ 1022 := by rw [← pow_add]

/-- The scale of step 2, one rounding per digit. -/
theorem exists_scaleOf_value {k : Nat} (hk : k ≤ 255) :
    ∃ z, (scaleOf binary64Ops base k).toRat? = some z ∧ 1 ≤ z ∧ z ≤ (base : Rat) ^ (k : Int) * slack k := by
  induction k with
  | zero => exact ⟨1, toRat?_ofInt_one, le_rfl, by simp [slack]⟩
  | succ k ih =>
    obtain ⟨z, hz, hone, hle⟩ := ih (by omega)
    have hbase : (binary64Ops.ofInt base).toRat? = some (base : Rat) := by
      simpa using toRat?_ofInt_of_small (i := base) (by omega)
    have hround := isRounded_mul hz hbase
    have hone' : (1 : Rat) ≤ base := by exact_mod_cast (by omega : 1 ≤ base)
    have hbound : z * base ≤ (base : Rat) ^ ((k + 1 : Nat) : Int) * slack k := by
      rw [Nat.cast_succ, zpow_add_one₀ (by linarith)]
      calc z * base ≤ (base : Rat) ^ (k : Int) * slack k * base := by gcongr
        _ = (base : Rat) ^ (k : Int) * base * slack k := by ring
    obtain ⟨hrange, hrange'⟩ := slack_bound_in_range hlow hhigh (e := (k + 1 : Nat)) (t := k) (by omega)
      (by omega) (by omega)
    obtain ⟨z', hz', -, hle', hbetween⟩ := hround.exists_le_slack (by nlinarith) hbound hrange hrange'
    refine ⟨z', hz', ?_, ?_⟩
    · exact hbetween 1 isMagnitude_one (by nlinarith)
    · calc z' ≤ (base : Rat) ^ ((k + 1 : Nat) : Int) * (slack k * (1 + 1 / 2 ^ 52)) := by
            rw [← mul_assoc]; exact hle'
        _ ≤ _ := by gcongr; exact slack_mul_le (by omega)

variable {fd0 : Nat} (hfd0 : fd0 ≤ 255) (value : F64)
include hfd0

/-- The scale of a pass down to `fd = -1`. -/
theorem exists_scale_value {k : Nat} (hk : k ≤ fd0 + 1) :
    ∃ z, (reductionPass binary64Ops value base fd0 k).scale.toRat? = some z ∧ 0 ≤ z ∧
      z ≤ (base : Rat) ^ ((fd0 : Int) - k) * slack (fd0 + k) := by
  induction k with
  | zero =>
    obtain ⟨z, hz, hone, hle⟩ := exists_scaleOf_value hlow hhigh hfd0
    exact ⟨z, hz, by linarith, by simpa using hle⟩
  | succ k ih =>
    obtain ⟨z, hz, hnonneg, hle⟩ := ih (by omega)
    have hround := isRounded_div hz (show 0 < base by omega)
    have hpos : (0 : Rat) < base := by exact_mod_cast (by omega : 0 < base)
    have hbound : z / base ≤ (base : Rat) ^ ((fd0 : Int) - (k + 1 : Nat)) * slack (fd0 + k) := by
      rw [show (fd0 : Int) - (k + 1 : Nat) = fd0 - k - 1 by push_cast; ring, zpow_sub_one₀ hpos.ne',
        mul_right_comm, ← div_eq_mul_inv]
      gcongr
    obtain ⟨hrange, hrange'⟩ := slack_bound_in_range hlow hhigh (e := (fd0 : Int) - (k + 1 : Nat))
      (t := fd0 + k) (by push_cast; omega) (by push_cast; omega) (by omega)
    obtain ⟨z', hz', hnonneg', hle', -⟩ := hround.exists_le_slack (by positivity) hbound hrange hrange'
    refine ⟨z', by rw [reductionPass_succ_scale]; exact hz', hnonneg', ?_⟩
    calc z' ≤ (base : Rat) ^ ((fd0 : Int) - (k + 1 : Nat)) * (slack (fd0 + k) * (1 + 1 / 2 ^ 52)) := by
          rw [← mul_assoc]; exact hle'
      _ ≤ _ := by gcongr; exact slack_mul_le (by omega)

/-- The scale of a pass past `fd = 0`: three quarters at most, and halved with each pass. -/
theorem exists_scale_value_past {j : Nat} (hj : j ≤ 1024) :
    ∃ z, (reductionPass binary64Ops value base fd0 (fd0 + 1 + j)).scale.toRat? = some z ∧ 0 ≤ z ∧
      z ≤ (3 : Nat) * 2 ^ (-2 - (j : Int)) := by
  have htwo : (2 : Rat) ≤ base := by exact_mod_cast hlow
  induction j with
  | zero =>
    obtain ⟨z, hz, hnonneg, hle⟩ := exists_scale_value hlow hhigh hfd0 value (k := fd0 + 1) le_rfl
    refine ⟨z, hz, hnonneg, hle.trans ?_⟩
    obtain ⟨hslack, hslack'⟩ := slack_bounds (t := fd0 + (fd0 + 1)) (by omega)
    have hinv : (base : Rat)⁻¹ ≤ 2⁻¹ := inv_anti₀ (by norm_num) htwo
    rw [show (fd0 : Int) - (fd0 + 1 : Nat) = -1 by push_cast; ring, zpow_neg_one]
    calc (base : Rat)⁻¹ * slack (fd0 + (fd0 + 1)) ≤ 2⁻¹ * (3 / 2) :=
          mul_le_mul hinv hslack' (by linarith) (by norm_num)
      _ = (3 : Nat) * 2 ^ (-2 - ((0 : Nat) : Int)) := by norm_num
  | succ j ih =>
    obtain ⟨z, hz, hnonneg, hle⟩ := ih (by omega)
    have hround := isRounded_div hz (show 0 < base by omega)
    have hhalf : z / base ≤ (3 : Nat) * 2 ^ (-2 - ((j + 1 : Nat) : Int)) := by
      rw [show -2 - ((j + 1 : Nat) : Int) = -2 - j - 1 by push_cast; ring, zpow_sub_one₀ two_ne_zero,
        ← mul_assoc, ← div_eq_mul_inv]
      gcongr
    have hsmall : z / base < overflowBound := by
      have hle1 : ((3 : Nat) : Rat) * 2 ^ (-2 - ((j + 1 : Nat) : Int)) ≤ (3 : Nat) * 1 := by
        gcongr
        exact zpow_le_one_of_nonpos₀ (by norm_num) (by push_cast; omega)
      exact hhalf.trans_lt ((hle1.trans_eq (mul_one _)).trans_lt (natCast_lt_overflowBound (by decide)))
    obtain ⟨z', hz', hnonneg', hbetween⟩ := hround.exists_nonneg (by positivity) hsmall
    have hmag : IsMagnitude ((3 : Nat) * 2 ^ (-2 - ((j + 1 : Nat) : Int))) :=
      isMagnitude_mul_zpow (by decide) (by push_cast; omega) (by push_cast; omega)
    exact ⟨z', by rw [← add_assoc, reductionPass_succ_scale]; exact hz', hnonneg', (hbetween _ hmag).1 hhalf⟩

variable {value} {x : Rat} (hvalue : value.toRat? = some x) (hnonneg : 0 ≤ x)
include hvalue hnonneg

/-- Past `fd = 0` the scale stays below 1, and after 1024 passes more the product with it is below 1. -/
theorem reductionEnds_binary64 (hx : x ≤ 2 ^ 1024) : ReductionEnds binary64Ops value fd0 base where
  scale_lt j hj := by
    obtain ⟨z, hz, -, hle⟩ := exists_scale_value_past hlow hhigh hfd0 value hj
    have hpow : (2 : Rat) ^ (-2 - (j : Int)) ≤ 2 ^ (-2 : Int) := zpow_le_zpow_right₀ (by norm_num) (by omega)
    rw [lt_one_eq hz, decide_eq_true_iff]
    calc z ≤ (3 : Nat) * 2 ^ (-2 - (j : Int)) := hle
      _ ≤ (3 : Nat) * 2 ^ (-2 : Int) := by gcongr
      _ < 1 := by norm_num
  dv_le := by
    obtain ⟨z, hz, hz0, hle⟩ := exists_scale_value_past hlow hhigh hfd0 value (j := 1024) le_rfl
    have hprod : x * z ≤ (3 : Nat) * 2 ^ (-2 : Int) :=
      calc x * z ≤ 2 ^ 1024 * ((3 : Nat) * 2 ^ (-2 - (1024 : Nat) : Int)) := by gcongr
        _ = (3 : Nat) * 2 ^ (-2 : Int) := by
          rw [zpow_sub₀ two_ne_zero, zpow_natCast]
          field_simp
    have hthree : ((3 : Nat) : Rat) * 2 ^ (-2 : Int) ≤ 1 := by norm_num
    have hone := natCast_lt_overflowBound (k := 2) (by decide)
    push_cast at hone
    obtain ⟨p, hp, hp0, hbetween⟩ := (isRounded_mul hvalue hz).exists_nonneg
      (mul_nonneg hnonneg hz0) (by linarith)
    have hple := (hbetween _ (isMagnitude_mul_zpow (by decide) (by decide) (by decide))).1 hprod
    obtain ⟨w, hw, -, hbetween'⟩ := exists_nround_value hp hp0 (by linarith)
    have hwle := (hbetween' _ (isMagnitude_mul_zpow (k := 5) (i := -2) (by decide) (by decide) (by decide))).1
      (by norm_num at hple ⊢; linarith)
    refine ⟨_, ?_, (reductionPass_dv ..).trans hw⟩
    have hfloor : ⌊w⌋ < 2 := Int.floor_lt.mpr (by norm_num at hwle ⊢; linarith)
    exact Int.toNat_le.mpr (Int.lt_add_one_iff.mp hfloor)

end

end Sys2Proof.Machine
end

section
/-!
PROOFS. The values FMT and FMTI start from (R45, R93, R94): every finite pattern and every 64-bit integer lies
below 2^1024 in either domain, so that the reduction ends within its bound and its guarded variant agrees
(R96, R97, 43_formatter.md).
-/
namespace Sys2Proof.Machine

/-- Every finite pattern is below 2^1024. -/
theorem abs_lt_of_ofBits {data : DataWord} {x : Rat} (h : (F64.ofBits data).toRat? = some x) :
    |x| < 2 ^ 1024 := by
  by_cases hfin : exponentField data = 2047
  · have hnone : (F64.ofBits data).toRat? = none := exactOps_ofBits_nonFinite (BitVec.eq_of_toNat_eq hfin)
    rw [hnone] at h
    cases h
  · rw [F64.ofBits_finite hfin, F64.toRat?_fin, Option.some_inj] at h
    have hunits : (patternUnits data : Rat) < 2 ^ 1024 * 2 ^ 1074 := by
      rw [← pow_add]
      exact_mod_cast patternUnits_lt hfin
    rw [← h, abs_signedValue, unitsValue, div_lt_iff₀ (by positivity)]
    exact hunits

/-- A 64-bit integer is 2^63 at most. -/
theorem abs_toInt_le (data : DataWord) : |(data.toInt : Rat)| ≤ (2 ^ 63 : Nat) := by
  have hlow := BitVec.le_toInt data
  have hhigh := BitVec.toInt_lt (x := data)
  have habs : |data.toInt| ≤ (2 ^ 63 : Nat) := abs_le.mpr ⟨by push_cast; omega, by push_cast; omega⟩
  exact_mod_cast habs

theorem two_pow_63_lt : ((2 ^ 63 : Nat) : Rat) < 2 ^ 1024 := by
  rw [Nat.cast_pow, Nat.cast_ofNat]
  exact pow_lt_pow_right₀ one_lt_two (by decide)

/-- `nOfInt` of a 64-bit integer in BINARY64: a value of its sign that no magnitude separates from it. -/
theorem exists_ofInt_value {i : Int} (h : |(i : Rat)| ≤ (2 ^ 63 : Nat)) :
    ∃ z, (binary64Ops.ofInt i).toRat? = some z ∧ (z < 0 ↔ i < 0) ∧
      ∀ m, IsMagnitude m → (|(i : Rat)| ≤ m → |z| ≤ m) ∧ (m ≤ |(i : Rat)| → m ≤ |z|) := by
  obtain ⟨z, hz, hpos, hneg, hbetween⟩ := (isRounded_ofInt i).exists_value
    (h.trans_lt (natCast_lt_overflowBound (by decide)))
  refine ⟨z, hz, ⟨fun hz0 => ?_, fun hi => ?_⟩, hbetween⟩
  · by_contra hi
    exact absurd (hpos (by exact_mod_cast not_lt.mp hi)) (not_le.mpr hz0)
  · have hone : (1 : Rat) ≤ |(i : Rat)| := by exact_mod_cast Int.one_le_abs hi.ne
    have hz1 := (hbetween 1 isMagnitude_one).2 hone
    have hle : z ≤ 0 := hneg (by exact_mod_cast hi.le)
    rw [abs_of_nonpos hle] at hz1
    linarith

section
variable {data : DataWord}

/-- What FMT and FMTI start from in EXACT is below 2^1024. -/
theorem abs_lt_of_input {x : Rat} (h : exactOps.ofBits data = some x ∨ x = exactOps.ofInt data.toInt) :
    |x| < 2 ^ 1024 := by
  rcases h with hbits | rfl
  · exact abs_lt_of_ofBits hbits
  · exact (abs_toInt_le data).trans_lt two_pow_63_lt

/-- What FMT and FMTI start from in BINARY64 has a value of 2^1024 at most. -/
theorem exists_input_value {x : F64}
    (h : binary64Ops.ofBits data = some x ∨ x = binary64Ops.ofInt data.toInt) :
    ∃ z, x.toRat? = some z ∧ |z| ≤ 2 ^ 1024 := by
  rcases h with hbits | rfl
  · obtain ⟨hfin, rfl⟩ := binary64Ops_ofBits_eq_some_iff.mp hbits
    have hval := F64.toRat?_fin (data.getLsbD 63) (patternUnits data)
    exact ⟨_, hval, (abs_lt_of_ofBits (by rw [F64.ofBits_finite hfin, hval])).le⟩
  · obtain ⟨z, hz, -, hbetween⟩ := exists_ofInt_value (abs_toInt_le data)
    exact ⟨z, hz, ((hbetween _ isMagnitude_two_pow_63).1 (abs_toInt_le data)).trans two_pow_63_lt.le⟩

variable {fd0 : BitVec 8} {base : Nat} (hlow : 2 ≤ base)
include hlow

/-- The reduction ends in EXACT for what FMT and FMTI start from. -/
theorem reductionEnds_exact_input {x : Rat} (h : exactOps.ofBits data = some x ∨ x = exactOps.ofInt data.toInt) :
    ReductionEnds exactOps (magnitude exactOps x) fd0.toNat base :=
  magnitude_exact x ▸ reductionEnds_exact hlow (abs_nonneg x) (abs_lt_of_input h) _

/-- The reduction ends in BINARY64 for what FMT and FMTI start from. -/
theorem reductionEnds_binary64_input (hhigh : base ≤ 16) {x : F64}
    (h : binary64Ops.ofBits data = some x ∨ x = binary64Ops.ofInt data.toInt) :
    ReductionEnds binary64Ops (magnitude binary64Ops x) fd0.toNat base := by
  obtain ⟨z, hz, hle⟩ := exists_input_value h
  exact reductionEnds_binary64 hlow hhigh (by omega) (toRat?_magnitude hz) (abs_nonneg z) hle

end

/-- Settles O34: in both domains the reduction ends. -/
theorem reductionEndsWithinBound : Obligations.ReductionEndsWithinBound := fun _ _ _ hlow hhigh =>
  ⟨fun _ h => (reductionEnds_binary64_input hlow hhigh h).not_reaches (one_lt_limitOf hlow _),
    fun _ h => (reductionEnds_exact_input hlow h).not_reaches (one_lt_limitOf hlow _)⟩

/-- Settles O38: where the reduction ends, its guarded variant shows the same. -/
theorem guardedReductionSameBuffer : Obligations.GuardedReductionSameBuffer :=
  fun c _ _ _ b hlow hhigh =>
  ⟨fun x h => (reductionEnds_binary64_input hlow hhigh h).finish_guardedReduced c (isNegative binary64Ops x) b,
    fun x h => (reductionEnds_exact_input hlow h).finish_guardedReduced c (isNegative exactOps x) b⟩

end Sys2Proof.Machine
end

section
/-! PROOFS. What FMT and FMTI show in each numeric domain (R84 to R90, R100, 43_formatter.md). -/
namespace Sys2Proof.Machine

section
variable {base : BitVec 8} (hlow : 2 ≤ base.toNat) (hhigh : base.toNat ≤ 16) {value : DataWord}
  {fd : BitVec 8} {s : State} {b : Buffer}
include hlow hhigh

/-- An admitted FMT whose buffer is known. -/
theorem exec_fmt_of_buffer (h : fmtBuffer s.config value fd base s.slot = b) :
    exec (.fmt value fd base) s = .next { s with slot := b, reply := .word 0 } := by
  rw [exec_fmt_of_admitted (baseAdmitted_iff.mpr ⟨hlow, hhigh⟩), h]
  rfl

/-- An admitted FMTI whose buffer is known. -/
theorem exec_fmti_of_buffer (h : fmtiBuffer s.config value fd base s.slot = b) :
    exec (.fmti value fd base) s = .next { s with slot := b, reply := .word 0 } := by
  rw [exec_fmti_of_admitted (baseAdmitted_iff.mpr ⟨hlow, hhigh⟩), h]
  rfl

/-- In EXACT both commands perform `Format` on their value (R93, R94). -/
theorem exec_exact {i : Instr} {x : Rat} (hnum : s.config.num = .exact)
    (hi : i = .fmt value fd base ∧ (F64.ofBits value).toRat? = some x ∨
      i = .fmti value fd base ∧ x = (value.toInt : Rat))
    (h : formatValue exactOps s.config x fd.toNat base.toNat s.slot = b) :
    exec i s = .next { s with slot := b, reply := .word 0 } := by
  obtain ⟨rfl, hx⟩ | ⟨rfl, rfl⟩ := hi
  · have hbits : exactOps.ofBits value = some x := hx
    exact exec_fmt_of_buffer hlow hhigh (by simp only [fmtBuffer, hnum, formatBits, hbits, h])
  · exact exec_fmti_of_buffer hlow hhigh (by simp only [fmtiBuffer, hnum]; exact h)

/-- In BINARY64 both commands perform `Format` on their value (R93, R94). -/
theorem exec_binary64 {i : Instr} {x : F64} (hnum : s.config.num = .binary64)
    (hi : i = .fmt value fd base ∧ binary64Ops.ofBits value = some x ∨
      i = .fmti value fd base ∧ x = binary64Ops.ofInt value.toInt)
    (h : formatValue binary64Ops s.config x fd.toNat base.toNat s.slot = b) :
    exec i s = .next { s with slot := b, reply := .word 0 } := by
  obtain ⟨rfl, hx⟩ | ⟨rfl, rfl⟩ := hi
  · exact exec_fmt_of_buffer hlow hhigh (by simp only [fmtBuffer, hnum, formatBits, hx, h])
  · exact exec_fmti_of_buffer hlow hhigh (by simp only [fmtiBuffer, hnum]; exact h)

end

theorem limitOf_decide (base : Nat) (p : Prop) [Decidable p] :
    limitOf base (decide p) = base ^ (if p then 3 else 4) := by
  simp [limitOf, availableDigits]

/-- Settles O32: by the largest count of digits that fits. -/
theorem exactFormatShowsRoundedValue : Obligations.ExactFormatShowsRoundedValue := by
  intro value fd base s i x hnum hlow hhigh hi
  have hx : |x| < 2 ^ 1024 := abs_lt_of_input (hi.imp And.right And.right)
  rw [← limitOf_decide]
  refine ⟨fun hover => ?_, fun k hk hfit hmore => ?_⟩
  · exact exec_exact hlow hhigh hnum hi (formatValue_exact_of_overflow hlow hx hover _ _ _)
  · exact exec_exact hlow hhigh hnum hi (formatValue_exact_of_fit (by omega) hk hfit hmore _ _)

/-- Settles O36: the reduction ends with an integer below the limit, which is shown unless the scale is
below 1. -/
theorem binaryFormatShowsReducedNumeral : Obligations.BinaryFormatShowsReducedNumeral := by
  intro value fd base s i x hnum hlow hhigh hi negative limit w
  have hinput : binary64Ops.ofBits value = some x ∨ x = binary64Ops.ofInt value.toInt :=
    hi.imp And.right And.right
  have hformat : formatValue binary64Ops s.config x fd.toNat base.toNat s.slot =
      finish binary64Ops s.config base.toNat limit negative w s.slot := rfl
  have hreach : w.dv.reaches limit = false :=
    (reductionEnds_binary64_input hlow hhigh hinput).not_reaches (one_lt_limitOf hlow _)
  refine ⟨fun hscale => ?_, fun hscale => ?_⟩
  · exact exec_binary64 hlow hhigh hnum hi (hformat.trans (finish_of_scale_lt hscale _))
  · obtain ⟨dv, hdv, hlt⟩ := DisplayValue.reaches_eq_false_iff.mp hreach
    exact ⟨dv, hdv, hlt, exec_binary64 hlow hhigh hnum hi
      (hformat.trans (finish_of_int_lt (by omega) hscale hdv hlt _))⟩

end Sys2Proof.Machine
end

section
/-!
PROOFS. Zero, and integers without fractional digits, in both numeric domains (R88, R99 to R103,
43_formatter.md).
-/
namespace Sys2Proof.Machine

/-! ### Zero -/

theorem numeralBuffer_zero (c : Config) (base : Nat) (fd : Int) :
    numeralBuffer c base fd 0 false =
      ⟨.written 0, .written 0, .written 0, .written 0, .written (segmentsFor c 0)⟩ := rfl

/-- Zero in EXACT fits with every digit asked for. -/
theorem formatValue_exact_zero {base : Nat} (hlow : 2 ≤ base) (fd0 : Nat) (c : Config) (b : Buffer) :
    formatValue exactOps c 0 fd0 base b = numeralBuffer c base fd0 0 false := by
  have hzero : exactDisplay |0| base fd0 = 0 := by
    rw [exactDisplay, abs_zero, zero_mul, zero_add]
    exact congrArg Int.toNat (show ⌊(1 / 2 : Rat)⌋ = 0 by norm_num)
  have hfit := formatValue_exact_of_fit (fd0 := fd0) (x := 0) (base := base) (by omega) le_rfl
    (by rw [hzero]; exact (one_lt_limitOf hlow _).le) (.inl rfl) c b
  rwa [hzero] at hfit

/-- Zero of either sign in BINARY64 fits with every digit asked for, and the scale is 1 or more. -/
theorem formatValue_binary64_zero {base : Nat} (hlow : 2 ≤ base) (hhigh : base ≤ 16) {fd0 : Nat}
    (hfd0 : fd0 ≤ 255) {x : F64} (hx : x.toRat? = some 0) (c : Config) (b : Buffer) :
    formatValue binary64Ops c x fd0 base b = numeralBuffer c base fd0 0 false := by
  have hsign : isNegative binary64Ops x = false := isNegative_binary64 hx
  have hmag : (magnitude binary64Ops x).toRat? = some 0 := by simpa using toRat?_magnitude hx
  obtain ⟨scale, hscale, hone, -⟩ := exists_scaleOf_value hlow hhigh hfd0
  have hbound := natCast_lt_overflowBound (k := 1) (by decide)
  push_cast at hbound
  have hprod : (binary64Ops.mul (magnitude binary64Ops x) (scaleOf binary64Ops base fd0)).toRat? = some 0 := by
    have hround := isRounded_mul hmag hscale
    rw [zero_mul] at hround
    refine hround.toRat?_eq ?_ ?_
    · rw [abs_zero]; exact isMagnitude_zero
    · rw [abs_zero]; linarith
  obtain ⟨w, hw, hnonneg, hbetween⟩ := exists_nround_value hprod le_rfl (by linarith)
  have hhalf : w ≤ (1 : Nat) * 2 ^ (-1 : Int) :=
    (hbetween _ (isMagnitude_mul_zpow (by decide) (by decide) (by decide))).1 (by norm_num)
  have hfloor : ⌊w⌋ < 0 + 1 := by
    rw [Int.floor_lt]
    norm_num at hhalf ⊢
    linarith
  have hdv : (reductionPass binary64Ops (magnitude binary64Ops x) base fd0 0).dv = .int 0 :=
    hw.trans (congrArg DisplayValue.int (Int.toNat_of_nonpos (Int.lt_add_one_iff.mp hfloor)))
  have hge : binary64Ops.lt (reductionPass binary64Ops (magnitude binary64Ops x) base fd0 0).scale
      (binary64Ops.ofInt 1) = false := (lt_one_eq hscale).trans (decide_eq_false (not_lt.mpr hone))
  rw [formatValue_of_fit (by omega) (Nat.zero_le _) (fun _ hj => absurd hj (Nat.not_lt_zero _)) hdv
    ((one_lt_limitOf hlow _).trans' Nat.zero_lt_one) hge, hsign, Nat.cast_zero, sub_zero]

/-- The two patterns of zero stand for it. -/
theorem toRat?_ofBits_zero {value : DataWord} (h : value = 0x0000000000000000 ∨ value = 0x8000000000000000) :
    ∃ x, binary64Ops.ofBits value = some x ∧ x.toRat? = some 0 ∧ (F64.ofBits value).toRat? = some 0 := by
  have hzero (neg : Bool) : signedValue neg 0 = 0 := by cases neg <;> simp [signedValue, unitsValue]
  have hfin : exponentField value ≠ 2047 := by rcases h with rfl | rfl <;> decide
  have hunits : patternUnits value = 0 := by rcases h with rfl | rfl <;> decide
  refine ⟨_, binary64Ops_ofBits_eq_some_iff.mpr ⟨hfin, rfl⟩, ?_, ?_⟩
  · rw [hunits, F64.toRat?_fin, hzero]
  · rw [F64.ofBits_finite hfin, hunits, F64.toRat?_fin, hzero]

/-- Settles O27: in both domains zero is exact, and one digit is shown. -/
theorem zeroShowsSingleDigit : Obligations.ZeroShowsSingleDigit := by
  intro value fd base s hzero hlow hhigh
  obtain ⟨x, hbits, hx, hrat⟩ := toRat?_ofBits_zero hzero
  have hfd : fd.toNat ≤ 255 := by omega
  have hint : (0 : DataWord).toInt = 0 := by decide
  rw [← numeralBuffer_zero s.config base.toNat fd.toNat]
  cases hnum : s.config.num with
  | binary64 =>
    exact ⟨exec_binary64 hlow hhigh hnum (.inl ⟨rfl, hbits⟩)
        (formatValue_binary64_zero hlow hhigh hfd hx _ _),
      exec_binary64 hlow hhigh hnum (.inr ⟨rfl, rfl⟩)
        (formatValue_binary64_zero hlow hhigh hfd (hint ▸ toRat?_ofInt_zero) _ _)⟩
  | exact =>
    exact ⟨exec_exact hlow hhigh hnum (.inl ⟨rfl, hrat⟩) (formatValue_exact_zero hlow _ _ _),
      exec_exact hlow hhigh hnum (.inr ⟨rfl, by rw [hint, Int.cast_zero]⟩) (formatValue_exact_zero hlow _ _ _)⟩

/-! ### Integers -/

/-- What `Format` shows for a 64-bit integer without fractional digits: its numeral when its magnitude is below
the limit of its sign, the error pattern otherwise. -/
def FormatsIntegers {N : Type} (D : NumOps N) : Prop :=
  ∀ (c : Config) (data : DataWord) (base : Nat) (b : Buffer), 2 ≤ base → base ≤ 16 →
    formatValue D c (D.ofInt data.toInt) 0 base b =
      if data.toInt.natAbs < limitOf base (decide (data.toInt < 0)) then
        numeralBuffer c base 0 data.toInt.natAbs (decide (data.toInt < 0))
      else Buffer.errorPattern

/-- Rounding half up leaves an integer as it is. -/
theorem exactDisplay_int (i : Int) (base : Nat) : exactDisplay |(i : Rat)| base 0 = i.natAbs := by
  have hfloor : ⌊((i.natAbs : Int) : Rat) + 1 / 2⌋ = i.natAbs := by
    rw [Int.floor_intCast_add, show ⌊(1 / 2 : Rat)⌋ = 0 by norm_num, add_zero]
  have habs : |(i : Rat)| = ((i.natAbs : Int) : Rat) := by push_cast; rfl
  rw [exactDisplay, pow_zero, mul_one, habs]
  exact (congrArg Int.toNat hfloor).trans (Int.toNat_natCast _)

theorem formatsIntegers_exact : FormatsIntegers exactOps := by
  intro c data base b hlow hhigh
  have hofInt : exactOps.ofInt data.toInt = (data.toInt : Rat) := rfl
  have hsign : decide ((data.toInt : Rat) < 0) = decide (data.toInt < 0) :=
    decide_eq_decide.mpr Int.cast_lt_zero
  rw [hofInt, ← hsign, ← exactDisplay_int data.toInt base]
  split_ifs with hfit
  · exact formatValue_exact_of_fit (by omega) le_rfl hfit (.inl rfl) c b
  · exact formatValue_exact_of_overflow hlow ((abs_toInt_le data).trans_lt two_pow_63_lt) (not_lt.mp hfit) 0 c b

/-- At `fd = 0` the integer of the first pass in BINARY64 lies on the same side as the value of every whole number
below 2^52. -/
theorem exists_first_dv {a : F64} {x : Rat} (ha : a.toRat? = some x) (hnonneg : 0 ≤ x)
    (hx : x ≤ (2 ^ 63 : Nat)) (base : Nat) :
    ∃ n, (reductionPass binary64Ops a base 0 0).dv = .int n ∧
      ∀ k : Nat, k < 2 ^ 52 → ((k : Rat) ≤ x → k ≤ n) ∧ (x ≤ k → n ≤ k) := by
  have hround := isRounded_mul ha toRat?_ofInt_one
  rw [mul_one] at hround
  obtain ⟨p, hp, hp0, hbetween⟩ := hround.exists_nonneg hnonneg
    (hx.trans_lt (natCast_lt_overflowBound (by decide)))
  have hp63 : p ≤ (2 ^ 63 : Nat) := (hbetween _ isMagnitude_two_pow_63).1 hx
  have hbound := natCast_lt_overflowBound (k := 2 ^ 64) le_rfl
  obtain ⟨w, hw, hw0, hbetween'⟩ := exists_nround_value hp hp0 (by push_cast at hp63 hbound; linarith)
  refine ⟨_, hw, fun k hk => ⟨fun hle => ?_, fun hle => ?_⟩⟩
  · have hkp := (hbetween k (isMagnitude_natCast (by omega))).2 hle
    have hkw := (hbetween' k (isMagnitude_natCast (by omega))).2 (by linarith)
    exact Nat.le_floor hkw
  · have hpk := (hbetween k (isMagnitude_natCast (by omega))).1 hle
    have hhalf : ((2 * k + 1 : Nat) : Rat) * 2 ^ (-1 : Int) = k + 1 / 2 := by push_cast; ring
    have hwk := (hbetween' _ (isMagnitude_mul_zpow (k := 2 * k + 1) (i := -1) (by omega) (by decide)
      (by decide))).1 (by rw [hhalf]; linarith)
    have hlt : w < ((k + 1 : Nat) : Rat) := by rw [hhalf] at hwk; push_cast; linarith
    exact Nat.lt_succ_iff.mp ((Nat.floor_lt hw0).mpr hlt)

theorem limitOf_le {base : Nat} (hhigh : base ≤ 16) (negative : Bool) : limitOf base negative ≤ 2 ^ 16 := by
  cases negative with
  | false => exact Nat.pow_le_pow_left hhigh 4
  | true => exact (Nat.pow_le_pow_left hhigh 3).trans (by decide)

theorem formatsIntegers_binary64 : FormatsIntegers binary64Ops := by
  intro c data base b hlow hhigh
  have hint := abs_toInt_le data
  obtain ⟨z, hz, hneg, hbetween⟩ := exists_ofInt_value hint
  have hsign : isNegative binary64Ops (binary64Ops.ofInt data.toInt) = decide (data.toInt < 0) :=
    (isNegative_binary64 hz).trans (decide_eq_decide.mpr hneg)
  have hz63 : |z| ≤ (2 ^ 63 : Nat) := (hbetween _ isMagnitude_two_pow_63).1 hint
  obtain ⟨n, hn, hsides⟩ := exists_first_dv (toRat?_magnitude hz) (abs_nonneg z) hz63 base
  have hlimit := limitOf_le hhigh (decide (data.toInt < 0))
  have habs : |(data.toInt : Rat)| = data.toInt.natAbs := by rw [Nat.cast_natAbs, Int.cast_abs]
  rw [habs] at hbetween
  split_ifs with hfit
  · have hmag := isMagnitude_natCast (k := data.toInt.natAbs) (by omega)
    obtain ⟨hge, hle⟩ := hsides data.toInt.natAbs (by omega)
    have hdv : n = data.toInt.natAbs :=
      le_antisymm (hle ((hbetween _ hmag).1 le_rfl)) (hge ((hbetween _ hmag).2 le_rfl))
    have hscale : binary64Ops.lt (reductionPass binary64Ops
        (magnitude binary64Ops (binary64Ops.ofInt data.toInt)) base 0 0).scale (binary64Ops.ofInt 1) = false :=
      (lt_one_eq toRat?_ofInt_one).trans (decide_eq_false (lt_irrefl 1))
    rw [formatValue_of_fit (by omega) (Nat.zero_le _) (fun _ hj => absurd hj (Nat.not_lt_zero _)) hn
      (by rwa [hsign, hdv]) hscale, hsign, hdv]
    rfl
  · have hends : ReductionEnds binary64Ops (magnitude binary64Ops (binary64Ops.ofInt data.toInt)) 0 base :=
      reductionEnds_binary64_input (fd0 := 0) hlow hhigh (.inr rfl)
    refine formatValue_of_reaches hends (fun j hj => ?_) c b
    have hover : ((limitOf base (decide (data.toInt < 0)) : Nat) : Rat) ≤ data.toInt.natAbs :=
      Nat.cast_le.mpr (not_lt.mp hfit)
    have hge := (hbetween _ (isMagnitude_natCast (by omega))).2 hover
    rw [Nat.le_zero.mp hj, hn, hsign, DisplayValue.reaches, decide_eq_true_iff]
    exact (hsides _ (by omega)).1 hge

/-- FMTI without fractional digits in the configured domain. -/
theorem exec_fmti_integer {base : BitVec 8} (hlow : 2 ≤ base.toNat) (hhigh : base.toNat ≤ 16)
    (value : DataWord) (s : State) :
    exec (.fmti value 0 base) s = .next { s with
      slot := if value.toInt.natAbs < limitOf base.toNat (decide (value.toInt < 0)) then
          numeralBuffer s.config base.toNat 0 value.toInt.natAbs (decide (value.toInt < 0))
        else Buffer.errorPattern,
      reply := .word 0 } := by
  cases hnum : s.config.num with
  | binary64 =>
    exact exec_binary64 hlow hhigh hnum (.inr ⟨rfl, rfl⟩) (formatsIntegers_binary64 _ _ _ _ hlow hhigh)
  | exact =>
    exact exec_exact hlow hhigh hnum (.inr ⟨rfl, rfl⟩) (formatsIntegers_exact _ _ _ _ hlow hhigh)

/-- Settles O29: the value is not negative and below the limit of four digits. -/
theorem integerShowsItsNumeral : Obligations.IntegerShowsItsNumeral := by
  intro value base s hlow hhigh hnonneg hlt
  have hsign : decide (value.toInt < 0) = false := decide_eq_false (not_lt.mpr hnonneg)
  have hfit : value.toInt.natAbs < limitOf base.toNat false := by
    have hcast : (value.toInt.natAbs : Int) < (base.toNat ^ 4 : Nat) := by
      push_cast; rwa [abs_of_nonneg hnonneg]
    exact_mod_cast hcast
  rw [exec_fmti_integer hlow hhigh, hsign, if_pos hfit]

/-- Settles O30: the magnitude is below the limit of three digits. -/
theorem negativeIntegerShowsSign : Obligations.NegativeIntegerShowsSign := by
  intro value base s hlow hhigh hneg hgt
  have hfit : value.toInt.natAbs < limitOf base.toNat true := by
    have hcast : (value.toInt.natAbs : Int) < (base.toNat ^ 3 : Nat) := by
      push_cast; rw [abs_of_neg hneg]; linarith
    exact_mod_cast hcast
  rw [exec_fmti_integer hlow hhigh, decide_eq_true hneg, if_pos hfit]

/-- Settles O31: the magnitude reaches the limit of its sign. -/
theorem unrenderableIntegerShowsError : Obligations.UnrenderableIntegerShowsError := by
  intro value base s hlow hhigh hover
  have hpow : 0 < (base.toNat : Int) ^ 3 ∧ 0 < (base.toNat : Int) ^ 4 := by
    have : (0 : Int) < base.toNat := by omega
    constructor <;> positivity
  have hnot : ¬ value.toInt.natAbs < limitOf base.toNat (decide (value.toInt < 0)) := by
    have hcast : ((limitOf base.toNat (decide (value.toInt < 0)) : Nat) : Int) ≤ value.toInt.natAbs := by
      rw [limitOf_decide]
      push_cast
      rcases hover with hpos | hneg
      · rw [if_neg (by omega), abs_of_nonneg (by omega)]; exact hpos
      · rw [if_pos (by omega), abs_of_neg (by omega)]; linarith
    exact not_lt.mpr (by exact_mod_cast hcast)
  rw [exec_fmti_integer hlow hhigh, if_neg hnot]

end Sys2Proof.Machine
end
